-- ==== Sys2Proof/Word.lean ====
section
/-! DEFINITION. Word: the fixed bit widths of the block (00_scope.md R1, R2, R6). -/

namespace Sys2Proof

/-- A byte of the memory and of the partial-byte register: 8 bits (R2). -/
abbrev Byte := BitVec 8

/-- The command word CMD: 32 bits (R6, R54). -/
abbrev CmdWord := BitVec 32

/-- The value path, DIN and DOUT: 64 bits (R1, R20, R55). -/
abbrev Data := BitVec 64

/-- The width field N of a command word: 7 bits, unsigned (R54, R56). -/
abbrev Width := BitVec 7

end Sys2Proof
end

