-- ==== Sys2Proof/Syntax.lean ====
section
/-! DEFINITION. Syntax: the nine commands of the opcode map (30_encoding.md R59). The operand buses are no part of the
command word (R55): a meaning reads them from the command port. -/

namespace Sys2Proof

/-- One command, as the command word names it (R59). -/
inductive Instr where
  /-- ATTACH_W: attach a buffer for writing (R67). -/
  | attachW
  /-- ATTACH_R: attach a buffer for reading (R68). -/
  | attachR
  /-- WRITE_BITS n: write the low n bits of DIN, most significant first (R74). -/
  | writeBits (n : Width)
  /-- WRITE_BIT: write DIN[0] (R75). -/
  | writeBit
  /-- STUFF s: pad to the byte boundary with the stuff bit s (R76). -/
  | stuff (s : Bool)
  /-- FLUSH: write out the partial byte, zero-padded (R77). -/
  | flush
  /-- READ_BITS n: read the next n stream bits (R83). -/
  | readBits (n : Width)
  /-- PEEK_BITS n: read the next n stream bits without moving the cursor (R84). -/
  | peekBits (n : Width)
  /-- READ_ALIGN: discard the rest of the current byte (R85). -/
  | readAlign
  deriving DecidableEq, Repr

end Sys2Proof
end

