-- ==== Sys2Proof/Decode.lean ====
section
/-! DEFINITION. Decode: the command word CMD32 (30_encoding.md R54 to R63), read and written. -/

namespace Sys2Proof

/-- Why a word is illegal (R60, R61): the name a rejected word gets. Each raises ILLEGAL_COMMAND (R90). -/
inductive IllegalWord where
  /-- OP is 0x0, 0x7 or 0xB to 0xF (R61). -/
  | reservedOpcode
  /-- RSV, CMD[31:12], is not 0 (R60). -/
  | reservedBits
  /-- N is not 0 in a command that takes no width (R60). -/
  | strayWidth
  /-- S is 1 in a command other than STUFF (R60). -/
  | strayStuff
  deriving DecidableEq, Repr

/-- OP = CMD[3:0] (R54). -/
def opField (w : CmdWord) : BitVec 4 := w.extractLsb' 0 4

/-- N = CMD[10:4] (R54, R56). -/
def nField (w : CmdWord) : Width := w.extractLsb' 4 7

/-- S = CMD[11] (R54, R57). -/
def sField (w : CmdWord) : Bool := w.getLsbD 11

/-- RSV = CMD[31:12] (R54). -/
def rsvField (w : CmdWord) : BitVec 20 := w.extractLsb' 12 20

/-- A command that takes no field of the word: N and S must be 0 (R59, R60). -/
def decodePlain (w : CmdWord) (i : Instr) : Except IllegalWord Instr :=
  if nField w ≠ 0 then .error .strayWidth
  else if sField w then .error .strayStuff
  else .ok i

/-- A command that takes N: S must be 0 (R59, R60). -/
def decodeWidth (w : CmdWord) (f : Width → Instr) : Except IllegalWord Instr :=
  if sField w then .error .strayStuff else .ok (f (nField w))

/-- A command that takes S: N must be 0 (R59, R60). -/
def decodeStuff (w : CmdWord) (f : Bool → Instr) : Except IllegalWord Instr :=
  if nField w ≠ 0 then .error .strayWidth else .ok (f (sField w))

/-- The command a word stands for, or why it is illegal; total on the 2^32 words (R59 to R62). -/
def decode (w : CmdWord) : Except IllegalWord Instr :=
  if rsvField w ≠ 0 then .error .reservedBits
  else match (opField w).toNat with
    | 0x1 => decodePlain w .attachW
    | 0x2 => decodePlain w .attachR
    | 0x3 => decodeWidth w .writeBits
    | 0x4 => decodePlain w .writeBit
    | 0x5 => decodeStuff w .stuff
    | 0x6 => decodePlain w .flush
    | 0x8 => decodeWidth w .readBits
    | 0x9 => decodeWidth w .peekBits
    | 0xA => decodePlain w .readAlign
    | _ => .error .reservedOpcode

/-- The word with the width operand n at CMD[10:4]: `op | (n << 4)` (R64). -/
def encodeWidth (op : CmdWord) (n : Width) : CmdWord := op ||| (n.setWidth 32 <<< 4)

/-- The word with the stuff operand s at CMD[11]: `op | (s << 11)` (R64). -/
def encodeStuff (op : CmdWord) (s : Bool) : CmdWord := op ||| ((BitVec.ofBool s).setWidth 32 <<< 11)

/-- The command word of a command (R59, R64). -/
def encode : Instr → CmdWord
  | .attachW => 0x00000001
  | .attachR => 0x00000002
  | .writeBits n => encodeWidth 0x00000003 n
  | .writeBit => 0x00000004
  | .stuff s => encodeStuff 0x00000005 s
  | .flush => 0x00000006
  | .readBits n => encodeWidth 0x00000008 n
  | .peekBits n => encodeWidth 0x00000009 n
  | .readAlign => 0x0000000A

/-- A row of the match and mask form of the opcode map (R59). -/
structure OpcodeRow where
  mnemonic : String
  value : CmdWord
  mask : CmdWord
  deriving DecidableEq, Repr

/-- The word is the row's command: `w & mask == match` (R59). -/
def OpcodeRow.matches (r : OpcodeRow) (w : CmdWord) : Bool := w &&& r.mask == r.value

/-- The opcode map in match and mask form, transcribed from R59's second table. -/
def opcodeTable : List OpcodeRow :=
  [ ⟨"ATTACH_W",   0x00000001, 0xFFFFFFFF⟩,
    ⟨"ATTACH_R",   0x00000002, 0xFFFFFFFF⟩,
    ⟨"WRITE_BITS", 0x00000003, 0xFFFFF80F⟩,
    ⟨"WRITE_BIT",  0x00000004, 0xFFFFFFFF⟩,
    ⟨"STUFF",      0x00000005, 0xFFFFF7FF⟩,
    ⟨"FLUSH",      0x00000006, 0xFFFFFFFF⟩,
    ⟨"READ_BITS",  0x00000008, 0xFFFFF80F⟩,
    ⟨"PEEK_BITS",  0x00000009, 0xFFFFF80F⟩,
    ⟨"READ_ALIGN", 0x0000000A, 0xFFFFFFFF⟩ ]

/-- The mnemonic of a command (R59). -/
def Instr.mnemonic : Instr → String
  | .attachW => "ATTACH_W"
  | .attachR => "ATTACH_R"
  | .writeBits _ => "WRITE_BITS"
  | .writeBit => "WRITE_BIT"
  | .stuff _ => "STUFF"
  | .flush => "FLUSH"
  | .readBits _ => "READ_BITS"
  | .peekBits _ => "PEEK_BITS"
  | .readAlign => "READ_ALIGN"

/-- The command the decoder reads from an opcode-table word of `nbits` bits, the bits above them 0. -/
def decodeTableWord (nbits w : Nat) : Option Instr :=
  match decode (BitVec.ofNat 32 (w % 2 ^ nbits)) with
  | .ok i => some i
  | .error _ => none

end Sys2Proof
end

