-- ==== Sys2Proof/Config.lean ====
section
/-! DEFINITION. Config: what an instance of the block fixes for its lifetime (R3, R4, R8, R33). -/

namespace Sys2Proof

/-- OVERWIDE_POLICY (R8): what a write does with a value that has bits at or above its width. -/
inductive OverwidePolicy where
  /-- Those bits are ignored: the default. -/
  | mask
  /-- The command faults with OVERWIDE_VALUE (R95). -/
  | fault
  deriving DecidableEq, Repr

/-- A range of addresses `base .. base + size - 1` of the platform's memory map (R49). -/
structure Region where
  base : Nat
  size : Nat
  deriving DecidableEq, Repr

/-- The configuration of one instance: no command changes it (R33). -/
structure Config where
  /-- AW, the width of an address: memory has 2^AW bytes (R3, R35). -/
  aw : Nat
  /-- LW, the width of CAP and BYTES_USED (R4). -/
  lw : Nat
  /-- MAX_CAP, the largest capacity an attach accepts (R4). -/
  maxCap : Nat
  /-- OVERWIDE_POLICY (R8). -/
  overwide : OverwidePolicy
  /-- DESIGN CHOICE (log 8): the platform's address ranges whose reads or writes have side effects,
  which no window may cover (R47). -/
  devices : List Region
  deriving DecidableEq, Repr

/-- The bounds R4 puts on MAX_CAP. -/
abbrev Config.Valid (c : Config) : Prop :=
  c.maxCap ≤ 2 ^ c.lw - 1 ∧ c.maxCap ≤ 2 ^ c.aw - 1

/-- DESIGN CHOICE (log 1): the parameters 95_test_vectors.md section 0 assumes for its vectors, and no
device region. R3 and R4 leave the numbers open; no statement over all states rests on them. -/
def Config.standard : Config where
  aw := 32
  lw := 32
  maxCap := 0xFFFF
  overwide := .mask
  devices := []

end Sys2Proof
end

