-- ==== Sys2Proof/Machine/State.lean ====
section
/-! DEFINITION. State: everything the spec gives the machine (10_state.md R13), with the memory, the command port and the
host's moves that one step reads. -/

namespace Sys2Proof.Machine

/-- MODE (R14): 0 IDLE, 1 WRITE, 2 READ, 3 FAULTED. All four values of the 2-bit register have a name. -/
inductive Mode where
  | idle
  | write
  | read
  | faulted
  deriving DecidableEq, Repr

/-- FAULT_CODE (R89). The codes 9 to 15 are "never produced", so they have no name here (log 12). -/
inductive FaultCode where
  /-- 0: no fault recorded. -/
  | none
  /-- 1: reserved opcode, or a nonzero reserved or unused field (R90). -/
  | illegalCommand
  /-- 2: a write command outside WRITE, or a read command outside READ (R91). -/
  | modeViolation
  /-- 3: width n = 0 or n > 64 (R92). -/
  | badWidth
  /-- 4: attach with ABASE = 0 (R93). -/
  | nullBuffer
  /-- 5: ABASE + ALEN > 2^AW, or ALEN > MAX_CAP (R94). -/
  | windowRange
  /-- 6: value wider than n, under OVERWIDE_POLICY = fault (R95). -/
  | overwideValue
  /-- 7: a commit would store at or past BASE + CAP (R96). -/
  | capacityExceeded
  /-- 8: a read or peek would pass the end of the window (R97). -/
  | readOverrun
  deriving DecidableEq, Repr

/-- The external memory (R35): the cells that differ from `unlistedByte`, by strictly rising address. -/
abbrev Memory := List Host.Cell

/-- The command port (R53, R55): the command word and the operand buses the host drives. ABASE and ALEN are
numbers here; a command reads the AW, respectively LW, low bits of them (Operands.lean, log 5). -/
structure Port where
  cmd : CmdWord
  din : Data
  abase : Nat
  alen : Nat
  deriving DecidableEq, Repr

/-- What the outside world does to the block between commands (log 2). -/
inductive HostMove where
  /-- The host presents one command with its operand buses (R53). -/
  | command (p : Port)
  /-- The reset input is asserted (R106). -/
  | reset
  /-- The host or another agent stores a byte to memory it owns (R35, R48, R109). -/
  | store (addr : Nat) (v : Byte)
  deriving DecidableEq, Repr

/-- What stops the MODEL (an architectural fault of R98 is a next state, not one of these). -/
inductive Fault where
  /-- An access at or above 2^AW, where R35 puts no byte. Raised by the primitives MemRead and MemWrite and by a
  host store; safe: the block's own accesses lie inside a window that ends at or below 2^AW (R16, R36), so only
  states no run reaches, or a host that stores outside memory, stop here (log 9). -/
  | addressOutsideMemory
  deriving DecidableEq, Repr

/-- What the model admits no run for. -/
inductive Refusal where
  /-- An instruction without a meaning yet, raised by exec's arm for it; safe. No arm raises it now. -/
  | notModelled (mnemonic : String)
  /-- An attach whose window covers a byte of a device region, raised by ATTACH_W and ATTACH_R; safe. R47: "A model
  refuses a program that attaches such a window". -/
  | attachOverDevice
  /-- A store by the host or another agent into the window of the session, raised by that host move; safe for hosts that
  keep R48, which forbids the store (log 7). -/
  | hostStoreIntoActiveWindow
  /-- A store by the host to a device region, raised by that host move; safe: such a store is no access of the block,
  and the spec does not say what a device does (R47, log 8). -/
  | hostStoreToDevice
  deriving DecidableEq, Repr

/-- The machine: the ten registers of R13, and beside them the configuration (R33), the external memory (R35), the command
port (R53) and the host's moves to come. -/
structure State where
  /-- MODE (R14). -/
  mode : Mode
  /-- BASE, the address of byte 0 of the window, below 2^AW (R15, log 6). -/
  base : Nat
  /-- CAP, the window's length in bytes, below 2^LW (R16, log 6). -/
  cap : Nat
  /-- BYTES_USED, the bytes committed or fetched, below 2^LW (R17, log 6). -/
  bytesUsed : Nat
  /-- REG, the partial byte (R18). -/
  reg : Byte
  /-- REG_USED, how many bits REG holds (R19). -/
  regUsed : BitVec 4
  /-- DOUT, the last value read or peeked (R20). -/
  dout : Data
  /-- FAULT_CODE (R21, R89). -/
  faultCode : FaultCode
  /-- FAULT_MODE, the mode the faulting command met (R21). -/
  faultMode : Mode
  /-- FAULT_CMD, the faulting command word (R21). -/
  faultCmd : CmdWord
  /-- The configuration of the instance: no step changes it (R33, log 1). -/
  cfg : Config
  /-- The external memory, the host's (R35, log 4). -/
  mem : Memory
  /-- The command port: what the host presented last (R53, log 3). -/
  port : Port
  /-- The model's own input: what the host does next, oldest first (log 2). -/
  hostMoves : List HostMove
  deriving DecidableEq, Repr

/-- The machine right after reset: every register as R32 says. The configuration (log 1), the memory's contents (log 4), the
levels of the port (log 3) and the empty list of host moves (log 2) are DESIGN CHOICES. -/
def State.reset : State where
  mode := .idle
  base := 0
  cap := 0
  bytesUsed := 0
  reg := 0
  regUsed := 0
  dout := 0
  faultCode := .none
  faultMode := .idle
  faultCmd := 0
  cfg := Config.standard
  mem := []
  port := ⟨0, 0, 0, 0⟩
  hostMoves := []

end Sys2Proof.Machine
end

