-- ==== Sys2Proof/Machine/Ops.lean ====
section
/-! DEFINITION. Ops: the named operations over memory and registers: MemRead and MemWrite (R40, R41), fault entry (R98), the
order of the checks (R99), reset as the only way out of a fault (R101, R106), and the stream position (R22). -/

namespace Sys2Proof.Machine

/-- The three outcomes of a step of this machine. -/
abbrev Result := Host.Outcome State Fault Refusal

/-! ### The external memory -/

/-- What an address with no cell reads as. DESIGN CHOICE (log 4): the spec gives memory no reset contents. -/
def unlistedByte : Byte := 0

/-- The byte at an address (R40). -/
def Memory.read : Memory → Nat → Byte
  | [], _ => unlistedByte
  | (b, v) :: rest, a => if b = a then v else Memory.read rest a

/-- The memory with no cell at an address. -/
def Memory.clear : Memory → Nat → Memory
  | [], _ => []
  | (b, v) :: rest, a => if b = a then Memory.clear rest a else (b, v) :: Memory.clear rest a

/-- A cell put before the first cell of a higher address. -/
def Memory.insert (a : Nat) (v : Byte) : Memory → Memory
  | [] => [(a, v)]
  | (b, w) :: rest => if a < b then (a, v) :: (b, w) :: rest else (b, w) :: Memory.insert a v rest

/-- The byte at an address replaced, all 8 bits of it (R41), in the canonical form. -/
def Memory.write (m : Memory) (a : Nat) (v : Byte) : Memory :=
  if v = unlistedByte then Memory.clear m a else Memory.insert a v (Memory.clear m a)

/-- The canonical form: addresses strictly rise, and no cell holds what an unlisted address reads as. -/
abbrev Memory.wf (m : Memory) : Prop :=
  m.Pairwise (fun x y => x.1 < y.1) ∧ ∀ c ∈ m, c.2 ≠ unlistedByte

/-- `MemRead(addr, 1)` (R40): the byte at an address of the 2^AW-byte memory (R35). -/
def memRead (a : Nat) (s : State) : Except Fault Byte :=
  if a < 2 ^ s.cfg.aw then .ok (s.mem.read a) else .error .addressOutsideMemory

/-- `MemWrite(addr, 1, v)` (R41): all 8 bits of the byte at an address of the 2^AW-byte memory (R35). -/
def memWrite (a : Nat) (v : Byte) (s : State) : Except Fault State :=
  if a < 2 ^ s.cfg.aw then .ok { s with mem := s.mem.write a v } else .error .addressOutsideMemory

/-- The outcome of a command whose primitives either answer a state or stop the model. -/
def finish : Except Fault State → Result
  | .ok t => .next t
  | .error e => .fault e

/-! ### Faults (60_exceptions.md) -/

/-- Fault entry (R98): the mode, the code and the command word are recorded, the block is FAULTED, and nothing else
changes. There is no vector and no saved program counter. -/
def takeFault (code : FaultCode) (s : State) : State :=
  { s with faultMode := s.mode, faultCode := code, faultCmd := s.port.cmd, mode := .faulted }

/-- The first fault of a list of conditions in priority order that holds (R99). -/
def firstFault : List (Bool × FaultCode) → Option FaultCode
  | [] => none
  | (true, c) :: _ => some c
  | (false, _) :: rest => firstFault rest

/-- One command: no effect in the FAULTED mode (R100), else the first of its fault conditions that holds (R99), else its
effect. -/
def runChecked (checks : List (Bool × FaultCode)) (effect : Result) (s : State) : Result :=
  if s.mode = .faulted then .next s
  else match firstFault checks with
    | some c => .next (takeFault c s)
    | none => effect

/-- An illegal command word (R90): ILLEGAL_COMMAND in every mode but FAULTED. -/
def execIllegal (s : State) : Result :=
  runChecked [(true, .illegalCommand)] (.next s) s

/-- The reset input (R106): every register takes its value of R32, whatever the mode; memory, configuration, port and the
host's moves are not the reset's. It is the only way out of the FAULTED mode (R101). -/
def assertReset (s : State) : State :=
  { s with
    mode := .idle, base := 0, cap := 0, bytesUsed := 0, reg := 0, regUsed := 0, dout := 0,
    faultCode := .none, faultMode := .idle, faultCmd := 0 }

/-! ### The session and its position -/

/-- The `m` of R22: MODE, or FAULT_MODE when MODE is FAULTED. -/
def State.sessionMode (s : State) : Mode :=
  if s.mode = .faulted then s.faultMode else s.mode

/-- BITPOS (R22), the number of stream bits the session has written or consumed. -/
def State.bitpos (s : State) : Nat :=
  match s.sessionMode with
  | .write => 8 * s.bytesUsed + s.regUsed.toNat
  | .read => 8 * s.bytesUsed - s.regUsed.toNat
  | .idle => 0
  | .faulted => 0

/-- A session is open: one was attached and neither an attach nor a reset has ended it (00_scope.md glossary, log 7). -/
def State.inSession (s : State) : Bool :=
  s.sessionMode == .write || s.sessionMode == .read

/-- The address lies in the window `BASE .. BASE + CAP - 1` (R36). -/
abbrev State.inWindow (s : State) (a : Nat) : Prop := s.base ≤ a ∧ a < s.base + s.cap

/-- `Commits(k)` (R72): the bytes that appending k bits commits. -/
def State.commits (s : State) (k : Nat) : Nat := (s.regUsed.toNat + k) / 8

/-- Two address ranges share a byte. -/
def meetsRegion (base len : Nat) (r : Region) : Bool :=
  decide (max base r.base < min (base + len) (r.base + r.size))

/-- A window covers a byte whose access has side effects (R47). -/
def coversDevice (c : Config) (base len : Nat) : Bool :=
  c.devices.any (meetsRegion base len)

end Sys2Proof.Machine
end

