-- ==== Sys2Proof/Machine/Cursor.lean ====
section
/-! DEFINITION. Cursor: the one-bit primitives WriteBit (R71) and ReadBit (R81) and their repetition. -/

namespace Sys2Proof.Machine

/-- `WriteBit(b)` (R71): b goes below the pending bits; a full byte is committed at BASE + BYTES_USED. -/
def writeBit (b : Bool) (s : State) : Except Fault State :=
  let reg := s.reg ||| ((BitVec.ofBool b).setWidth 8 <<< (7 - s.regUsed.toNat))
  let used := s.regUsed + 1
  if used = 8 then
    match memWrite (s.base + s.bytesUsed) reg s with
    | .ok t => .ok { t with bytesUsed := s.bytesUsed + 1, reg := 0, regUsed := 0 }
    | .error e => .error e
  else .ok { s with reg := reg, regUsed := used }

/-- `for i = n-1 downto 0: WriteBit(v[i])` (R74). -/
def writeField (v : Data) : Nat → State → Except Fault State
  | 0, s => .ok s
  | n + 1, s =>
    match writeBit (v.getLsbD n) s with
    | .ok t => writeField v n t
    | .error e => .error e

/-- `while REG_USED != 0: WriteBit(b)` (R76, R77), at most `fuel` times round; 8 times is enough from every value of the
4-bit REG_USED. -/
def padBits (b : Bool) : Nat → State → Except Fault State
  | 0, s => .ok s
  | fuel + 1, s =>
    if s.regUsed = 0 then .ok s
    else match writeBit b s with
      | .ok t => padBits b fuel t
      | .error e => .error e

/-- The fetch at the head of `ReadBit()` (R81): the next byte into REG when REG holds no bit. -/
def fetchByte (s : State) : Except Fault State :=
  if s.regUsed = 0 then
    match memRead (s.base + s.bytesUsed) s with
    | .ok v => .ok { s with reg := v, bytesUsed := s.bytesUsed + 1, regUsed := 8 }
    | .error e => .error e
  else .ok s

/-- `ReadBit()` (R81): the top bit of REG, after a fetch if REG holds none. -/
def readBit (s : State) : Except Fault (Bool × State) :=
  match fetchByte s with
  | .ok t => .ok (t.reg.getLsbD 7, { t with reg := t.reg <<< 1, regUsed := t.regUsed - 1 })
  | .error e => .error e

/-- `repeat n times: acc <- (acc << 1) | ReadBit()` (R83). -/
def readField : Nat → Nat → State → Except Fault (Nat × State)
  | 0, acc, s => .ok (acc, s)
  | n + 1, acc, s =>
    match readBit s with
    | .ok (b, t) => readField n ((acc <<< 1) ||| b.toNat) t
    | .error e => .error e

end Sys2Proof.Machine
end

