-- ==== Sys2Proof/Machine/Operands.lean ====
section
/-! DEFINITION. Operands: every operand form of 30_encoding.md R55 to R58. -/

namespace Sys2Proof.Machine

/-- The value operand DIN, 64 bits, unsigned (R58). -/
def State.din (s : State) : Data := s.port.din

/-- The window base ABASE: the bus has AW bits (R55, log 5). -/
def State.abase (s : State) : Nat := s.port.abase % 2 ^ s.cfg.aw

/-- The window length ALEN: the bus has LW bits (R55, log 5). -/
def State.alen (s : State) : Nat := s.port.alen % 2 ^ s.cfg.lw

/-- The width operand n, unsigned, without scaling or offset (R56). -/
def widthOf (n : Width) : Nat := n.toNat

/-- The bit operand of WRITE_BIT, DIN[0] (R58). -/
def State.dinBit (s : State) : Bool := s.din.getLsbD 0

end Sys2Proof.Machine
end

