-- ==== Sys2Proof/Machine/Flags.lean ====
section
/-! DEFINITION. Flags: the block has no carry, zero or overflow flag (R27). Its status is MODE and the fault record, read by
the host (R28), the output fault_o (R34), and the fault conditions a command checks (R90 to R97). -/

namespace Sys2Proof.Machine

/-- The 2 bits of MODE and FAULT_MODE (R14). -/
def Mode.toBits : Mode → BitVec 2
  | .idle => 0
  | .write => 1
  | .read => 2
  | .faulted => 3

/-- The 4 bits of FAULT_CODE (R89). -/
def FaultCode.toBits : FaultCode → BitVec 4
  | .none => 0
  | .illegalCommand => 1
  | .modeViolation => 2
  | .badWidth => 3
  | .nullBuffer => 4
  | .windowRange => 5
  | .overwideValue => 6
  | .capacityExceeded => 7
  | .readOverrun => 8

/-- The ten registers (R13), by the names the host reads them under (R28). -/
inductive Reg where
  | MODE | BASE | CAP | BYTES_USED | REG | REG_USED | DOUT | FAULT_CODE | FAULT_MODE | FAULT_CMD
  deriving DecidableEq, Repr

/-- What the host reads of a register between commands (R28); reading changes nothing. -/
def State.readReg (s : State) : Reg → Nat
  | .MODE => s.mode.toBits.toNat
  | .BASE => s.base
  | .CAP => s.cap
  | .BYTES_USED => s.bytesUsed
  | .REG => s.reg.toNat
  | .REG_USED => s.regUsed.toNat
  | .DOUT => s.dout.toNat
  | .FAULT_CODE => s.faultCode.toBits.toNat
  | .FAULT_MODE => s.faultMode.toBits.toNat
  | .FAULT_CMD => s.faultCmd.toNat

/-- The status output fault_o, a level (R34). -/
def State.faultO (s : State) : Bool := s.mode == .faulted

/-! ### Fault conditions, each under the name of its code -/

/-- MODE_VIOLATION (R91): the command needs a mode the block is not in. -/
def modeViolation (needed : Mode) (s : State) : Bool := s.mode != needed

/-- BAD_WIDTH (R92): n is 0 or greater than 64. -/
def badWidth (n : Width) : Bool := decide (widthOf n < 1 ∨ widthOf n > 64)

/-- NULL_BUFFER (R93): ABASE is the null address 0 (R5). -/
def nullBuffer (s : State) : Bool := s.abase == 0

/-- WINDOW_RANGE (R94): the window would wrap the address space, or is larger than MAX_CAP. -/
def windowRange (s : State) : Bool :=
  decide (s.abase + s.alen > 2 ^ s.cfg.aw ∨ s.alen > s.cfg.maxCap)

/-- OVERWIDE_VALUE (R95): under the fault policy, DIN ≥ 2^n. For WRITE_BIT n is 1: DIN > 1. -/
def overwideValue (n : Nat) (s : State) : Bool :=
  s.cfg.overwide == .fault && decide (s.din.toNat ≥ 2 ^ n)

/-- CAPACITY_EXCEEDED for a command that appends k bits (R72, R96). -/
def capacityExceeded (k : Nat) (s : State) : Bool :=
  decide (s.bytesUsed + s.commits k > s.cap)

/-- CAPACITY_EXCEEDED for STUFF and FLUSH (R96): a pending byte that cannot be committed. -/
def padExceeded (s : State) : Bool :=
  s.regUsed != 0 && decide (s.bytesUsed + 1 > s.cap)

/-- READ_OVERRUN (R97): the read or peek would pass the end of the window. -/
def readOverrun (n : Nat) (s : State) : Bool := decide (s.bitpos + n > 8 * s.cap)

end Sys2Proof.Machine
end

