-- ==== Sys2Proof/Machine/Read.lean ====
section
/-! DEFINITION. Read: READ_BITS, PEEK_BITS and READ_ALIGN (42_read.md R82 to R85). -/

namespace Sys2Proof.Machine

/-- The checks of a read command of n bits, in order (R82, R99). -/
def readChecks (n : Width) (s : State) : List (Bool × FaultCode) :=
  [(modeViolation .read s, .modeViolation), (badWidth n, .badWidth), (readOverrun (widthOf n) s, .readOverrun)]

/-- The end of READ_BITS (R83): the cursor stays where the reads left it, and DOUT takes the value, zero-extended. -/
def keepRead : Except Fault (Nat × State) → Result
  | .ok (acc, t) => .next { t with dout := BitVec.ofNat 64 acc }
  | .error e => .fault e

/-- The end of PEEK_BITS (R84): REG, REG_USED and BYTES_USED go back to the snapshot, and DOUT takes the value. -/
def restoreRead (saved : State) : Except Fault (Nat × State) → Result
  | .ok (acc, t) =>
    .next { t with reg := saved.reg, regUsed := saved.regUsed, bytesUsed := saved.bytesUsed,
                   dout := BitVec.ofNat 64 acc }
  | .error e => .fault e

/-- READ_BITS n (R83). -/
def execReadBits (n : Width) (s : State) : Result :=
  runChecked (readChecks n s) (keepRead (readField (widthOf n) 0 s)) s

/-- PEEK_BITS n (R84). -/
def execPeekBits (n : Width) (s : State) : Result :=
  runChecked (readChecks n s) (restoreRead s (readField (widthOf n) 0 s)) s

/-- READ_ALIGN (R85): the unconsumed bits are dropped, unchecked, and no memory is accessed. -/
def execReadAlign (s : State) : Result :=
  runChecked [(modeViolation .read s, .modeViolation)] (.next { s with reg := 0, regUsed := 0 }) s

end Sys2Proof.Machine
end

