-- ==== Sys2Proof/Machine/Session.lean ====
section
/-! DEFINITION. Session: ATTACH_W and ATTACH_R (40_session.md R67 to R70). -/

namespace Sys2Proof.Machine

/-- The registers an attach writes (R67, R68): the window of the buses, an empty cursor, the session's mode. The earlier
session ends, its pending bits are not stored, and no memory is accessed (R69). -/
def openSession (m : Mode) (s : State) : State :=
  { s with base := s.abase, cap := s.alen, bytesUsed := 0, reg := 0, regUsed := 0, mode := m }

/-- An attach for the session mode m: NULL_BUFFER, WINDOW_RANGE, and no window over a device (R47). -/
def attach (m : Mode) (s : State) : Result :=
  runChecked [(nullBuffer s, .nullBuffer), (windowRange s, .windowRange)]
    (if coversDevice s.cfg s.abase s.alen then .refused .attachOverDevice else .next (openSession m s)) s

/-- ATTACH_W (R67). -/
def execAttachW (s : State) : Result := attach .write s

/-- ATTACH_R (R68). -/
def execAttachR (s : State) : Result := attach .read s

end Sys2Proof.Machine
end

