-- ==== Sys2Proof/Machine/Write.lean ====
section
/-! DEFINITION. Write: WRITE_BITS, WRITE_BIT, STUFF and FLUSH (41_write.md R73 to R78). -/

namespace Sys2Proof.Machine

/-- WRITE_BITS n (R74): the low n bits of DIN, most significant first. -/
def execWriteBits (n : Width) (s : State) : Result :=
  runChecked
    [(modeViolation .write s, .modeViolation), (badWidth n, .badWidth),
     (overwideValue (widthOf n) s, .overwideValue), (capacityExceeded (widthOf n) s, .capacityExceeded)]
    (finish (writeField s.din (widthOf n) s)) s

/-- WRITE_BIT (R75): the bit DIN[0]. -/
def execWriteBit (s : State) : Result :=
  runChecked
    [(modeViolation .write s, .modeViolation), (overwideValue 1 s, .overwideValue),
     (capacityExceeded 1 s, .capacityExceeded)]
    (finish (writeBit s.dinBit s)) s

/-- Padding to the byte boundary with a bit (R76, R77): nothing on a boundary. -/
def padToByte (b : Bool) (s : State) : Result :=
  runChecked [(modeViolation .write s, .modeViolation), (padExceeded s, .capacityExceeded)]
    (finish (padBits b 8 s)) s

/-- STUFF b (R76). -/
def execStuff (b : Bool) (s : State) : Result := padToByte b s

/-- FLUSH (R77): zero-padded; the session goes on (R78). -/
def execFlush (s : State) : Result := padToByte false s

end Sys2Proof.Machine
end

