-- ==== Sys2Proof/Machine/Dispatch.lean ====
section
/-! DEFINITION. Dispatch: one arm per command. -/

namespace Sys2Proof.Machine

/-- The effect of one command, its operand buses on the port. -/
def exec (i : Instr) (s : State) : Host.Outcome State Fault Refusal :=
  match i with
  | .attachW => Sys2Proof.Machine.execAttachW s
  | .attachR => Sys2Proof.Machine.execAttachR s
  | .writeBits n => Sys2Proof.Machine.execWriteBits n s
  | .writeBit => Sys2Proof.Machine.execWriteBit s
  | .stuff b => Sys2Proof.Machine.execStuff b s
  | .flush => Sys2Proof.Machine.execFlush s
  | .readBits n => Sys2Proof.Machine.execReadBits n s
  | .peekBits n => Sys2Proof.Machine.execPeekBits n s
  | .readAlign => Sys2Proof.Machine.execReadAlign s

end Sys2Proof.Machine
end

