-- ==== Sys2Proof/Machine/CommandPort.lean ====
section
/-! DEFINITION. CommandPort: what one move of the outside world does: a command presented (R53), reset asserted (R106), a
store to memory (R48). -/

namespace Sys2Proof.Machine

/-- The command on the port: its meaning if the word is one of the nine commands, else ILLEGAL_COMMAND (R62, R90). -/
def performCommand (s : State) : Result :=
  match decode s.port.cmd with
  | .ok i => exec i s
  | .error _ => execIllegal s

/-- A store by the host or another agent: into ordinary memory that no session owns (R48, R109). -/
def hostStore (a : Nat) (v : Byte) (s : State) : Result :=
  if s.inSession ∧ s.inWindow a then .refused .hostStoreIntoActiveWindow
  else if coversDevice s.cfg a 1 then .refused .hostStoreToDevice
  else finish (memWrite a v s)

/-- One move of the outside world. -/
def performMove : HostMove → State → Result
  | .command p, s => performCommand { s with port := p }
  | .reset, s => .next (assertReset s)
  | .store a v, s => hostStore a v s

/-- The next move taken from the list; with none the block waits, unchanged (R102, R107). -/
def stepHost (s : State) : Result :=
  match s.hostMoves with
  | [] => .next s
  | m :: rest => performMove m { s with hostMoves := rest }

/-- A command word of `nbits` bits, with the buses as they are, put before the host's other moves. -/
def placeCommand (s : State) (nbits w : Nat) : State :=
  { s with hostMoves := .command { s.port with cmd := BitVec.ofNat 32 (w % 2 ^ nbits) } :: s.hostMoves }

end Sys2Proof.Machine
end

