-- ==== Sys2Proof/Machine/Step.lean ====
section
/-! DEFINITION. Step: one step is one move of the outside world; a command is performed whole in it (R53). -/

namespace Sys2Proof.Machine

/-- One step of the machine. -/
def step (s : State) : Host.Outcome State Fault Refusal := stepHost s

/-- The state whose very next step runs the opcode-table word `w` (log 2). -/
def State.withFetchWord (s : State) (nbits w : Nat) : State := placeCommand s nbits w

end Sys2Proof.Machine
end

