-- ==== Sys2Proof/WellFormed.lean ====
section
/-! DEFINITION. WellFormed: the commands the assembler of 30_encoding.md R64 accepts. Every Instr has a command word and
runs (R56: "Decode accepts every value"); a width outside 1..64 faults when it executes (R92). -/

namespace Sys2Proof

/-- A width the assembler accepts: 1 to 64 (R1, R64). -/
abbrev legalWidth (n : Width) : Prop := 1 ≤ n.toNat ∧ n.toNat ≤ 64

/-- The command is one an assembler emits (R64: it "refuses n outside 1..64"). -/
def Instr.wellFormed : Instr → Bool
  | .writeBits n => decide (legalWidth n)
  | .readBits n => decide (legalWidth n)
  | .peekBits n => decide (legalWidth n)
  | .attachW => true
  | .attachR => true
  | .writeBit => true
  | .stuff _ => true
  | .flush => true
  | .readAlign => true

end Sys2Proof
end

