-- ==== Sys2Proof/Machine/Assembler.lean ====
section
/-! DEFINITION. Assembler: the assembler syntax and the pseudo-commands (30_encoding.md R64, R65): what the host puts on the
command port for a line of a program. -/

namespace Sys2Proof.Machine

/-- One line of assembler, operands as written (R64). -/
inductive AsmLine where
  | attachW (base len : Nat)
  | attachR (base len : Nat)
  | writeBits (n v : Nat)
  | writeBit (b : Nat)
  | stuff (s : Nat)
  | flush
  | readBits (n : Nat)
  | peekBits (n : Nat)
  | readAlign
  deriving DecidableEq, Repr

/-- The pseudo-commands (R65). -/
inductive PseudoLine where
  | writeByte (v : Nat)
  | writeU16 (v : Nat)
  | writeU32 (v : Nat)
  | writeU64 (v : Nat)
  | readByte
  | skipBits (n : Nat)
  | alignZero
  | alignOnes
  deriving DecidableEq, Repr

/-- A pseudo-command is exactly its expansion (R65). -/
def PseudoLine.expand : PseudoLine → AsmLine
  | .writeByte v => .writeBits 8 v
  | .writeU16 v => .writeBits 16 v
  | .writeU32 v => .writeBits 32 v
  | .writeU64 v => .writeBits 64 v
  | .readByte => .readBits 8
  | .skipBits n => .readBits n
  | .alignZero => .flush
  | .alignOnes => .stuff 1

/-- A width the assembler accepts, as the width field. -/
def asmWidth (n : Nat) : Option Width :=
  if 1 ≤ n ∧ n ≤ 64 then some (BitVec.ofNat 7 n) else none

/-- A one-bit operand the assembler accepts. -/
def asmBit (b : Nat) : Option Bool :=
  if b ≤ 1 then some (b == 1) else none

/-- The port for a command that reads no bus; the levels of unread buses are DESIGN CHOICE 0 (log 14). -/
def portOf (i : Instr) : Port := ⟨encode i, 0, 0, 0⟩

/-- The command word and buses of an assembler line, or a refusal of a width outside 1..64 or a bit outside 0..1 (R64). -/
def assemble : AsmLine → Option Port
  | .attachW base len => some { portOf .attachW with abase := base, alen := len }
  | .attachR base len => some { portOf .attachR with abase := base, alen := len }
  | .writeBits n v => (asmWidth n).map fun n => { portOf (.writeBits n) with din := BitVec.ofNat 64 v }
  | .writeBit b => (asmBit b).map fun b => { portOf .writeBit with din := (BitVec.ofBool b).setWidth 64 }
  | .stuff s => (asmBit s).map fun s => portOf (.stuff s)
  | .flush => some (portOf .flush)
  | .readBits n => (asmWidth n).map fun n => portOf (.readBits n)
  | .peekBits n => (asmWidth n).map fun n => portOf (.peekBits n)
  | .readAlign => some (portOf .readAlign)

end Sys2Proof.Machine
end

