-- ==== Sys2Proof/Safety.lean ====
section
/-! DEFINITION. Safety: the terms claims are made in: the stream a session writes or reads (R12, R37, R79), the invariant of
every run (R15, R16, R23 to R26), the order of fault conditions over all commands (R99), and sessions as sequences of
commands (R79, R88). -/

namespace Sys2Proof.Machine

/-! ### The stream -/

/-- Stream bit k of the bytes at `base` (R12, R37). -/
def streamBit (m : Memory) (base k : Nat) : Bool := (m.read (base + k / 8)).getLsbD (7 - k % 8)

/-- Stream bit k as the window's memory holds it (R37). -/
def State.windowBit (s : State) (k : Nat) : Bool := streamBit s.mem s.base k

/-- Stream bit k of a write session: in memory if its byte is committed, else pending in REG (R18, R79). -/
def State.writtenBit (s : State) (k : Nat) : Bool :=
  if k < 8 * s.bytesUsed then s.windowBit k else s.reg.getLsbD (7 - (k - 8 * s.bytesUsed))

/-- The stream a write session has written so far, first bit first (R79). -/
def State.written (s : State) : List Bool :=
  (List.range (8 * s.bytesUsed + s.regUsed.toNat)).map s.writtenBit

/-- The low n bits of a value, most significant first (R38, R74). -/
def fieldBits (v : Data) (n : Nat) : List Bool :=
  (List.range n).map fun j => v.getLsbD (n - 1 - j)

/-- How many bits bring a stream of `len` bits to a byte boundary (R76). -/
def padLength (len : Nat) : Nat := (8 - len % 8) % 8

/-- The bits a write command adds to a stream of `len` bits (R79); none for the other commands. -/
def commandBits (i : Instr) (din : Data) (len : Nat) : List Bool :=
  match i with
  | .writeBits n => fieldBits din n.toNat
  | .writeBit => [din.getLsbD 0]
  | .stuff b => List.replicate (padLength len) b
  | .flush => List.replicate (padLength len) false
  | .attachW => []
  | .attachR => []
  | .readBits _ => []
  | .peekBits _ => []
  | .readAlign => []

/-! ### Which command needs and does what -/

/-- The mode a command needs (R91); the attaches need none. -/
def neededMode : Instr → Option Mode
  | .attachW => none
  | .attachR => none
  | .writeBits _ => some .write
  | .writeBit => some .write
  | .stuff _ => some .write
  | .flush => some .write
  | .readBits _ => some .read
  | .peekBits _ => some .read
  | .readAlign => some .read

/-- The command reads DIN (R55). -/
def readsDin : Instr → Bool
  | .writeBits _ => true
  | .writeBit => true
  | .attachW => false
  | .attachR => false
  | .stuff _ => false
  | .flush => false
  | .readBits _ => false
  | .peekBits _ => false
  | .readAlign => false

/-- The command reads ABASE and ALEN (R55). -/
def readsWindow : Instr → Bool
  | .attachW => true
  | .attachR => true
  | .writeBits _ => false
  | .writeBit => false
  | .stuff _ => false
  | .flush => false
  | .readBits _ => false
  | .peekBits _ => false
  | .readAlign => false

/-- The number of bits a write command appends, from the registers (R72, R76). -/
def appendCount (i : Instr) (s : State) : Nat :=
  match i with
  | .writeBits n => n.toNat
  | .writeBit => 1
  | .stuff _ => padLength s.regUsed.toNat
  | .flush => padLength s.regUsed.toNat
  | .attachW => 0
  | .attachR => 0
  | .readBits _ => 0
  | .peekBits _ => 0
  | .readAlign => 0

/-! ### Fault conditions over all commands -/

/-- A command word R60 or R61 calls illegal, by its numeric fields (R90). -/
abbrev illegalWord (w : CmdWord) : Prop :=
  let op := w.toNat % 16
  let n := w.toNat / 16 % 128
  let sbit := w.toNat / 2048 % 2
  let rsv := w.toNat / 4096
  op = 0x0 ∨ op = 0x7 ∨ 0xB ≤ op ∨ rsv ≠ 0 ∨
    (n ≠ 0 ∧ op ≠ 0x3 ∧ op ≠ 0x8 ∧ op ≠ 0x9) ∨ (sbit = 1 ∧ op ≠ 0x5)

/-- The condition under which a command raises a fault code, the other codes apart (R89, R91 to R97). -/
def faultCondition (c : FaultCode) (i : Instr) (s : State) : Prop :=
  match c, i with
  | .modeViolation, i => ∃ m, neededMode i = some m ∧ s.mode ≠ m
  | .badWidth, .writeBits n => n.toNat = 0 ∨ 64 < n.toNat
  | .badWidth, .readBits n => n.toNat = 0 ∨ 64 < n.toNat
  | .badWidth, .peekBits n => n.toNat = 0 ∨ 64 < n.toNat
  | .nullBuffer, .attachW => s.abase = 0
  | .nullBuffer, .attachR => s.abase = 0
  | .windowRange, .attachW => 2 ^ s.cfg.aw < s.abase + s.alen ∨ s.cfg.maxCap < s.alen
  | .windowRange, .attachR => 2 ^ s.cfg.aw < s.abase + s.alen ∨ s.cfg.maxCap < s.alen
  | .overwideValue, .writeBits n => s.cfg.overwide = .fault ∧ 2 ^ n.toNat ≤ s.din.toNat
  | .overwideValue, .writeBit => s.cfg.overwide = .fault ∧ 1 < s.din.toNat
  | .capacityExceeded, .writeBits n => s.cap < s.bytesUsed + (s.regUsed.toNat + n.toNat) / 8
  | .capacityExceeded, .writeBit => s.cap < s.bytesUsed + (s.regUsed.toNat + 1) / 8
  | .capacityExceeded, .stuff _ => 0 < s.regUsed.toNat ∧ s.cap < s.bytesUsed + 1
  | .capacityExceeded, .flush => 0 < s.regUsed.toNat ∧ s.cap < s.bytesUsed + 1
  | .readOverrun, .readBits n => 8 * s.cap < s.bitpos + n.toNat
  | .readOverrun, .peekBits n => 8 * s.cap < s.bitpos + n.toNat
  | _, _ => False

/-- R99's place of a code in the order of the checks; ILLEGAL_COMMAND comes before them all, at decode. -/
def faultRank : FaultCode → Nat
  | .none => 0
  | .illegalCommand => 2
  | .modeViolation => 3
  | .badWidth => 4
  | .nullBuffer => 5
  | .windowRange => 6
  | .overwideValue => 7
  | .capacityExceeded => 8
  | .readOverrun => 8

/-! ### The invariant -/

/-- The bits of REG below its top REG_USED bits are 0 (R18, R23, R24). -/
abbrev State.restZero (s : State) : Prop :=
  ∀ i, i < 8 - s.regUsed.toNat → s.reg.getLsbD i = false

/-- The window lies inside the address space (R16, R49). -/
abbrev State.windowFits (s : State) : Prop := s.base + s.cap ≤ 2 ^ s.cfg.aw

/-- What an accepted attach makes true of the window (R15, R16, R47), and R26. -/
structure State.WindowOk (s : State) : Prop where
  notNull : s.base ≠ 0
  capLe : s.cap ≤ s.cfg.maxCap
  fits : s.windowFits
  ordinary : coversDevice s.cfg s.base s.cap = false
  used : s.bytesUsed ≤ s.cap

/-- The cursor of a write session between commands (R23). -/
structure State.WriteCursor (s : State) : Prop where
  few : s.regUsed.toNat ≤ 7
  rest : s.restZero

/-- The cursor of a read session between commands (R24), and REG as the copy of the unconsumed bits of the last fetched
byte (R18, R31), which no other agent has changed since (R48, R113). -/
structure State.ReadCursor (s : State) : Prop where
  few : s.regUsed.toNat ≤ 7
  fetched : s.regUsed.toNat ≤ 8 * s.bytesUsed
  copy : s.regUsed ≠ 0 →
    s.reg = s.mem.read (s.base + s.bytesUsed - 1) <<< (8 - s.regUsed.toNat)
  rest : s.restZero

/-- The cursor before any session (R25). -/
structure State.IdleCursor (s : State) : Prop where
  base : s.base = 0
  cap : s.cap = 0
  used : s.bytesUsed = 0
  reg : s.reg = 0
  regUsed : s.regUsed = 0

/-- The fault record (R21): written exactly when MODE is FAULTED, and then with a code and the mode before. -/
abbrev State.RecordOk (s : State) : Prop :=
  if s.mode = .faulted then s.faultCode ≠ .none ∧ s.faultMode ≠ .faulted
  else s.faultCode = .none ∧ s.faultMode = .idle ∧ s.faultCmd = 0

/-- The cursor registers are those of the session the block is in, or was in when it faulted (R98). -/
def State.CursorOk (s : State) : Prop :=
  match s.sessionMode with
  | .idle => s.IdleCursor
  | .write => s.WindowOk ∧ s.WriteCursor
  | .read => s.WindowOk ∧ s.ReadCursor
  | .faulted => False

/-- The external memory: canonical, and inside the address space (R35, log 4). -/
abbrev State.MemoryOk (s : State) : Prop :=
  s.mem.wf ∧ ∀ c ∈ s.mem, c.1 < 2 ^ s.cfg.aw

/-- The invariant of the machine: at reset, and kept by every step. -/
structure State.Inv (s : State) : Prop where
  cfg : s.cfg.Valid
  memory : s.MemoryOk
  record : s.RecordOk
  cursor : s.CursorOk

/-! ### Sessions -/

/-- A write session and the stream it has written: an attach for writing, then write commands without a fault, the buses
driven anew for each, and stores of other agents in between (R69, R79). -/
inductive WriteSession : State → List Bool → Prop where
  | attach (s t : State) : exec .attachW s = .next t → t.mode = .write → WriteSession t []
  | command (s t : State) (bits : List Bool) (p : Port) (i : Instr) :
      WriteSession s bits → neededMode i = some .write →
      exec i { s with port := p } = .next t → t.mode = .write →
      WriteSession t (bits ++ commandBits i p.din bits.length)
  | store (s t : State) (bits : List Bool) (a : Nat) (v : Byte) :
      WriteSession s bits → hostStore a v s = .next t → WriteSession t bits

/-- An item of a stream: a field of n bits, or padding to the byte boundary (R88). -/
inductive StreamItem where
  | field (n : Width) (v : Data)
  | pad (b : Bool)
  deriving DecidableEq, Repr

/-- The write command of an item (R88). -/
def StreamItem.writePort : StreamItem → Port
  | .field n v => { portOf (.writeBits n) with din := v }
  | .pad b => portOf (.stuff b)

/-- The read command that matches it (R88): READ_ALIGN for padding. -/
def StreamItem.readPort : StreamItem → Port
  | .field n _ => portOf (.readBits n)
  | .pad _ => portOf .readAlign

/-- The value a read of the item returns: v mod 2^n (R88); none for padding. -/
def StreamItem.value : StreamItem → Option Nat
  | .field n v => some (v.toNat % 2 ^ n.toNat)
  | .pad _ => none

/-- Commands presented one after another, stopping at the first that does not answer a next state. -/
def runCommands : List Port → State → Result
  | [], s => .next s
  | p :: ps, s =>
    match performMove (.command p) s with
    | .next t => runCommands ps t
    | .fault r => .fault r
    | .refused r => .refused r

/-- The read commands of the items one after another, with DOUT taken after each field; none unless every command ends in
the READ mode. -/
def readItems : List StreamItem → State → Option (List Nat)
  | [], _ => some []
  | x :: xs, s =>
    match performMove (.command x.readPort) s with
    | .next t =>
      if t.mode = .read then
        match x.value, readItems xs t with
        | some _, some vs => some (t.dout.toNat :: vs)
        | none, some vs => some vs
        | _, none => none
      else none
    | .fault _ => none
    | .refused _ => none

end Sys2Proof.Machine
end

