-- ==== Sys2Proof/Certificates/Slice0/Obligations.lean ====
section
/-! DEFINITION. Obligations: the statements about the block, for the provers. -/

open Sys2Proof Sys2Proof.Machine

/-! ### The command word -/

/-- Decoding and encoding agree in both directions, every operand at every value: no bit of a word is dropped, and no other
word decodes to the command (R59; that decoding is total is the spec's inference R62). -/
def Obligations.DecodeIsExactlyTheInverseOfEncode : Prop :=
  ∀ (w : CmdWord) (i : Instr), decode w = .ok i ↔ encode i = w

/-- Every word is exactly one of the nine commands (it matches that row's match and mask, and no other's), or illegal; and a
word that matches a row may still fault when it executes. This is R62, which the spec infers from R59, R60 and R61. -/
def Obligations.EveryWordIsOneCommandOrIllegal : Prop :=
  (∀ w : CmdWord,
    (∃ i r, decode w = .ok i ∧ opcodeTable.filter (·.matches w) = [r] ∧ r.mnemonic = i.mnemonic) ∨
    ((∃ e, decode w = .error e) ∧ opcodeTable.filter (·.matches w) = [])) ∧
  (∃ (w : CmdWord) (i : Instr) (s : State), decode w = .ok i ∧ s.port.cmd = w ∧ s.mode = .read ∧
    exec i s = .next (takeFault .badWidth s))

/-- A word that R60 or R61 calls illegal raises ILLEGAL_COMMAND in every mode but FAULTED (R90). That every other word is a
command, and so raises none, is R62, which the spec infers from R59, R60 and R61. -/
def Obligations.IllegalWordsRaiseIllegalCommand : Prop :=
  ∀ (p : Port) (s : State), s.mode ≠ .faulted →
    (illegalWord p.cmd →
      performMove (.command p) s = .next (takeFault .illegalCommand { s with port := p })) ∧
    (¬ illegalWord p.cmd →
      (∃ i, decode p.cmd = .ok i) ∧
      performMove (.command p) s ≠ .next (takeFault .illegalCommand { s with port := p }))

/-- Words written out from R59 and R64, and one illegal word for each reason of R60 and R61. -/
def Obligations.SpecWordsDecodeToTheirCommands : Prop :=
  decode 0x00000001 = .ok .attachW ∧ decode 0x00000002 = .ok .attachR ∧
  decode 0x000000C3 = .ok (.writeBits 12) ∧ decode 0x00000004 = .ok .writeBit ∧
  decode 0x00000805 = .ok (.stuff true) ∧ decode 0x00000006 = .ok .flush ∧
  decode 0x00000408 = .ok (.readBits 64) ∧ decode 0x00000109 = .ok (.peekBits 16) ∧
  decode 0x0000000A = .ok .readAlign ∧ decode 0x00000000 = .error .reservedOpcode ∧
  decode 0x00000016 = .error .strayWidth ∧ decode 0x00000883 = .error .strayStuff ∧
  decode 0x00001003 = .error .reservedBits

/-- The assembler's words and the buses its lines drive, for every operand it accepts, and the operands it refuses (R64). Two
parts are the model's choice (log 14): the buses a line does not set are 0, and DIN takes the low 64 bits of a value v of 2^64
or more. -/
def Obligations.AssemblerEmitsTheTableWords : Prop :=
  (∀ base len, assemble (.attachW base len) = some ⟨0x00000001, 0, base, len⟩) ∧
  (∀ base len, assemble (.attachR base len) = some ⟨0x00000002, 0, base, len⟩) ∧
  (∀ n v, 1 ≤ n → n ≤ 64 →
    assemble (.writeBits n v) = some ⟨0x00000003 ||| (BitVec.ofNat 32 n <<< 4), BitVec.ofNat 64 v, 0, 0⟩) ∧
  (∀ b, b ≤ 1 → assemble (.writeBit b) = some ⟨0x00000004, BitVec.ofNat 64 b, 0, 0⟩) ∧
  (∀ s, s ≤ 1 → assemble (.stuff s) = some ⟨0x00000005 ||| (BitVec.ofNat 32 s <<< 11), 0, 0, 0⟩) ∧
  assemble .flush = some ⟨0x00000006, 0, 0, 0⟩ ∧
  (∀ n, 1 ≤ n → n ≤ 64 → assemble (.readBits n) = some ⟨0x00000008 ||| (BitVec.ofNat 32 n <<< 4), 0, 0, 0⟩) ∧
  (∀ n, 1 ≤ n → n ≤ 64 → assemble (.peekBits n) = some ⟨0x00000009 ||| (BitVec.ofNat 32 n <<< 4), 0, 0, 0⟩) ∧
  assemble .readAlign = some ⟨0x0000000A, 0, 0, 0⟩ ∧
  (∀ n v, n < 1 ∨ 64 < n →
    assemble (.writeBits n v) = none ∧ assemble (.readBits n) = none ∧ assemble (.peekBits n) = none) ∧
  (∀ b, 1 < b → assemble (.writeBit b) = none ∧ assemble (.stuff b) = none)

/-! ### One step -/

/-- A step whose next move is a command performs the decoded command whole, on the port's buses (R53). That a step takes its
input from the list of host moves is the model's choice (log 2). -/
def Obligations.StepRunsTheDecodedCommand : Prop :=
  ∀ (s : State) (p : Port) (rest : List HostMove) (i : Instr),
    s.hostMoves = .command p :: rest → decode p.cmd = .ok i →
    step s = exec i { s with port := p, hostMoves := rest }

/-- A step performs the host's next move, and with none the block waits, unchanged (R102, R107; the list is the model's
choice, log 2). -/
def Obligations.StepTakesTheNextMoveOrWaits : Prop :=
  ∀ s : State,
    (s.hostMoves = [] → step s = .next s) ∧
    (∀ m rest, s.hostMoves = m :: rest → step s = performMove m { s with hostMoves := rest })

/-- R32, R106: reset gives every register its value, whatever the mode, and changes no byte of memory. -/
def Obligations.ResetSetsEveryRegister : Prop :=
  ∀ s : State, performMove .reset s = .next { s with
    mode := .idle, base := 0, cap := 0, bytesUsed := 0, reg := 0x00, regUsed := 0, dout := 0,
    faultCode := .none, faultMode := .idle, faultCmd := 0 }

/-- A store by the host or another agent (R48, R109): refused inside the window of a session, and elsewhere, in ordinary
memory, it replaces one byte and nothing else. That the window stays owned in the FAULTED mode is the model's reading
(log 7), the device regions its choice (log 8). -/
def Obligations.StoresIntoAnActiveWindowAreRefused : Prop :=
  ∀ (a : Nat) (v : Byte) (s : State),
    (s.inSession = true → s.inWindow a →
      performMove (.store a v) s = .refused .hostStoreIntoActiveWindow) ∧
    (¬ (s.inSession = true ∧ s.inWindow a) → coversDevice s.cfg a 1 = false → a < 2 ^ s.cfg.aw →
      ∃ m, performMove (.store a v) s = .next { s with mem := m } ∧
        m.read a = v ∧ ∀ b, b ≠ a → m.read b = s.mem.read b)

/-! ### Faults -/

/-- R98: whatever the command word, a command that leaves the block FAULTED recorded the mode, a code and the word, and
changed nothing else: no session register, no DOUT, no memory; fault_o is up; and with any other memory it does the same, so
it makes no memory access. -/
def Obligations.FaultEntryIsPrecise : Prop :=
  ∀ (p : Port) (s t : State), s.mode ≠ .faulted →
    performMove (.command p) s = .next t → t.mode = .faulted →
    (∃ c, c ≠ .none ∧
      t = { s with port := p, faultMode := s.mode, faultCode := c, faultCmd := p.cmd, mode := .faulted }) ∧
    t.faultO = true ∧
    ∀ m, performMove (.command p) { s with mem := m } = .next { t with mem := m }

/-- R99, with the conditions of R91 to R97: in FAULTED nothing happens; an illegal word raises ILLEGAL_COMMAND before any
other check; else the command raises the first condition of the order that holds, and none if none holds. -/
def Obligations.FirstFaultConditionIsRaised : Prop :=
  (∀ (p : Port) (s : State), s.mode = .faulted → performMove (.command p) s = .next { s with port := p }) ∧
  (∀ (p : Port) (s : State), s.mode ≠ .faulted → illegalWord p.cmd →
    performMove (.command p) s = .next (takeFault .illegalCommand { s with port := p })) ∧
  (∀ (i : Instr) (s : State), s.mode ≠ .faulted →
    (∀ c, faultCondition c i s → (∀ d, faultCondition d i s → faultRank c ≤ faultRank d) →
      exec i s = .next (takeFault c s)) ∧
    ((∀ c, ¬ faultCondition c i s) → ∀ t, exec i s = .next t → t.mode ≠ .faulted)) ∧
  (∀ (i : Instr) (s : State), ¬ (faultCondition .capacityExceeded i s ∧ faultCondition .readOverrun i s))

/-- R34: fault_o is 1 exactly in the FAULTED mode; and the numbers under which the host reads MODE and the fault codes are
those of R14 and R89. -/
def Obligations.HostSeesTheStatus : Prop :=
  (∀ s : State, s.faultO = true ↔ s.mode = .faulted) ∧
  (∀ s : State, s.readReg .MODE =
    match s.mode with | .idle => 0 | .write => 1 | .read => 2 | .faulted => 3) ∧
  (∀ (c : FaultCode) (s : State), (takeFault c s).readReg .FAULT_CODE =
    match c with
    | .none => 0 | .illegalCommand => 1 | .modeViolation => 2 | .badWidth => 3 | .nullBuffer => 4
    | .windowRange => 5 | .overwideValue => 6 | .capacityExceeded => 7 | .readOverrun => 8)

/-- R91: a command is turned away with MODE_VIOLATION exactly in the modes the table marks. -/
def Obligations.ModeViolationFollowsTheTable : Prop :=
  ∀ (s : State), s.mode ≠ .faulted →
    (∀ i, i = .attachW ∨ i = .attachR → exec i s ≠ .next (takeFault .modeViolation s)) ∧
    (∀ i n b, i = .writeBits n ∨ i = .writeBit ∨ i = .stuff b ∨ i = .flush →
      (exec i s = .next (takeFault .modeViolation s) ↔ s.mode = .idle ∨ s.mode = .read)) ∧
    (∀ i n, i = .readBits n ∨ i = .peekBits n ∨ i = .readAlign →
      (exec i s = .next (takeFault .modeViolation s) ↔ s.mode = .idle ∨ s.mode = .write))

/-- R100: in the FAULTED mode every command word, an attach or an illegal one too, changes no register and no memory. -/
def Obligations.FaultedBlockIgnoresEveryCommand : Prop :=
  ∀ (p : Port) (s : State), s.mode = .faulted → performMove (.command p) s = .next { s with port := p }

/-- R101: only reset leaves the FAULTED mode, and then no fault is recorded. -/
def Obligations.OnlyResetLeavesFaulted : Prop :=
  ∀ (m : HostMove) (s t : State), s.mode = .faulted → performMove m s = .next t → t.mode ≠ .faulted →
    m = .reset ∧ t.mode = .idle ∧ t.faultCode = .none

/-- A run without reset keeps a fault and everything the block held at it, however long (R100, R101, R115; U16 "stuck"). -/
def Obligations.FaultIsStuckUntilReset : Prop :=
  ∀ (k : Nat) (s t : State), s.mode = .faulted → HostMove.reset ∉ s.hostMoves → core.run k s = .next t →
    t = { s with mem := t.mem, port := t.port, hostMoves := t.hostMoves } ∧
    ∀ a, s.inSession = true → s.inWindow a → t.mem.read a = s.mem.read a

/-- R104: the transitions of MODE, and no other: an attach that does not fault opens its session, a command that faults
leads to FAULTED, reset to IDLE. -/
def Obligations.ModeTransitionsAreTheTable : Prop :=
  ∀ (m : HostMove) (s t : State), performMove m s = .next t →
    (t.mode = s.mode ∨
      (s.mode ≠ .faulted ∧ t.mode = .write ∧ ∃ p, m = .command p ∧ decode p.cmd = .ok .attachW) ∨
      (s.mode ≠ .faulted ∧ t.mode = .read ∧ ∃ p, m = .command p ∧ decode p.cmd = .ok .attachR) ∨
      (s.mode ≠ .faulted ∧ t.mode = .faulted ∧ t.faultCode ≠ .none ∧ ∃ p, m = .command p) ∨
      (t.mode = .idle ∧ m = .reset)) ∧
    (∀ p, m = .command p → decode p.cmd = .ok .attachW → t.mode = .write ∨ t.mode = .faulted) ∧
    (∀ p, m = .command p → decode p.cmd = .ok .attachR → t.mode = .read ∨ t.mode = .faulted) ∧
    (m = .reset → t.mode = .idle)

/-- R21: the fault record is written by fault entry and by reset only. -/
def Obligations.FaultRecordIsWrittenOnlyByFaultsAndReset : Prop :=
  ∀ (m : HostMove) (s t : State), performMove m s = .next t →
    (t.faultCode = s.faultCode ∧ t.faultMode = s.faultMode ∧ t.faultCmd = s.faultCmd) ∨
    (∃ p, m = .command p ∧ s.mode ≠ .faulted ∧ t.mode = .faulted ∧ t.faultCode ≠ .none ∧
      t.faultMode = s.mode ∧ t.faultCmd = p.cmd) ∨
    (m = .reset ∧ t.faultCode = .none ∧ t.faultMode = .idle ∧ t.faultCmd = 0)

/-! ### Attach -/

/-- ATTACH_W on a window that fits (R67): every register the command writes, and nothing else changed. -/
def Obligations.AttachForWritingOpensTheSession : Prop :=
  ∀ s : State, s.mode ≠ .faulted → s.abase ≠ 0 → s.abase + s.alen ≤ 2 ^ s.cfg.aw → s.alen ≤ s.cfg.maxCap →
    coversDevice s.cfg s.abase s.alen = false →
    exec .attachW s = .next { s with
      mode := .write, base := s.abase, cap := s.alen, bytesUsed := 0, reg := 0, regUsed := 0 }

/-- ATTACH_R on a window that fits (R68). -/
def Obligations.AttachForReadingOpensTheSession : Prop :=
  ∀ s : State, s.mode ≠ .faulted → s.abase ≠ 0 → s.abase + s.alen ≤ 2 ^ s.cfg.aw → s.alen ≤ s.cfg.maxCap →
    coversDevice s.cfg s.abase s.alen = false →
    exec .attachR s = .next { s with
      mode := .read, base := s.abase, cap := s.alen, bytesUsed := 0, reg := 0, regUsed := 0 }

/-- R93, R94: the two faults of an attach. -/
def Obligations.AttachFaultsOnNullAndRange : Prop :=
  ∀ (i : Instr) (s : State), i = .attachW ∨ i = .attachR → s.mode ≠ .faulted →
    (s.abase = 0 → exec i s = .next (takeFault .nullBuffer s)) ∧
    (s.abase ≠ 0 → s.abase + s.alen > 2 ^ s.cfg.aw ∨ s.alen > s.cfg.maxCap →
      exec i s = .next (takeFault .windowRange s))

/-- A window that would be accepted but covers a device is refused (R47); which addresses are devices is a configuration
field of the model's own (log 8). -/
def Obligations.DeviceWindowsAreRefused : Prop :=
  ∀ (i : Instr) (s : State) (r : Region) (a : Nat), i = .attachW ∨ i = .attachR → s.mode ≠ .faulted → s.abase ≠ 0 →
    s.abase + s.alen ≤ 2 ^ s.cfg.aw → s.alen ≤ s.cfg.maxCap →
    r ∈ s.cfg.devices → r.base ≤ a → a < r.base + r.size → s.abase ≤ a → a < s.abase + s.alen →
    exec i s = .refused .attachOverDevice

/-- The frame of an attach, from every state (R69): no byte of memory and not DOUT; if it does not fault the fault record is
kept, and if it faults all registers of the earlier session are. -/
def Obligations.AttachLeavesMemoryAndDout : Prop :=
  ∀ (i : Instr) (s t : State), i = .attachW ∨ i = .attachR → exec i s = .next t →
    (∀ a, t.mem.read a = s.mem.read a) ∧ t.dout = s.dout ∧ t.cfg = s.cfg ∧ t.port = s.port ∧
    t.hostMoves = s.hostMoves ∧
    (t.mode ≠ .faulted → t.faultCode = s.faultCode ∧ t.faultMode = s.faultMode ∧ t.faultCmd = s.faultCmd) ∧
    (t.mode = .faulted → t.base = s.base ∧ t.cap = s.cap ∧ t.bytesUsed = s.bytesUsed ∧ t.reg = s.reg ∧
      t.regUsed = s.regUsed)

/-! ### Writing -/

/-- WRITE_BITS n (R74): the stream grows by the low n bits of DIN, most significant first, with the registers that follow;
only the bytes committed change, and only the cursor's registers. Before that its four faults, in their order. -/
def Obligations.WriteBitsAppendsTheField : Prop :=
  ∀ (n : Width) (s : State),
    (s.mode = .idle ∨ s.mode = .read → exec (.writeBits n) s = .next (takeFault .modeViolation s)) ∧
    (s.mode = .write → ¬ legalWidth n → exec (.writeBits n) s = .next (takeFault .badWidth s)) ∧
    (s.mode = .write → legalWidth n → s.cfg.overwide = .fault → 2 ^ n.toNat ≤ s.din.toNat →
      exec (.writeBits n) s = .next (takeFault .overwideValue s)) ∧
    (s.mode = .write → legalWidth n → (s.cfg.overwide = .mask ∨ s.din.toNat < 2 ^ n.toNat) →
      s.cap < s.bytesUsed + (s.regUsed.toNat + n.toNat) / 8 →
      exec (.writeBits n) s = .next (takeFault .capacityExceeded s)) ∧
    (s.mode = .write → legalWidth n → (s.cfg.overwide = .mask ∨ s.din.toNat < 2 ^ n.toNat) →
      s.bytesUsed + (s.regUsed.toNat + n.toNat) / 8 ≤ s.cap → s.windowFits → s.WriteCursor →
      ∃ t, exec (.writeBits n) s = .next t ∧
        t.written = s.written ++ fieldBits s.din n.toNat ∧
        t.bytesUsed = s.bytesUsed + (s.regUsed.toNat + n.toNat) / 8 ∧
        t.regUsed.toNat = (s.regUsed.toNat + n.toNat) % 8 ∧ t.restZero ∧
        t = { s with reg := t.reg, regUsed := t.regUsed, bytesUsed := t.bytesUsed, mem := t.mem } ∧
        ∀ a, ¬ (s.base + s.bytesUsed ≤ a ∧ a < s.base + t.bytesUsed) → t.mem.read a = s.mem.read a)

/-- WRITE_BIT (R75): DIN[0] below the pending bits, and the eighth bit commits the byte. Before that its three faults, in
their order. -/
def Obligations.WriteBitAppendsOneBit : Prop :=
  ∀ s : State,
    (s.mode = .idle ∨ s.mode = .read → exec .writeBit s = .next (takeFault .modeViolation s)) ∧
    (s.mode = .write → s.cfg.overwide = .fault → 1 < s.din.toNat →
      exec .writeBit s = .next (takeFault .overwideValue s)) ∧
    (s.mode = .write → (s.cfg.overwide = .mask ∨ s.din.toNat ≤ 1) → s.cap < s.bytesUsed + (s.regUsed.toNat + 1) / 8 →
      exec .writeBit s = .next (takeFault .capacityExceeded s)) ∧
    (s.mode = .write → (s.cfg.overwide = .mask ∨ s.din.toNat ≤ 1) → s.regUsed.toNat < 7 → s.bytesUsed ≤ s.cap →
      exec .writeBit s = .next { s with
        reg := s.reg ||| ((BitVec.ofBool (s.din.getLsbD 0)).setWidth 8 <<< (7 - s.regUsed.toNat)),
        regUsed := s.regUsed + 1 }) ∧
    (s.mode = .write → (s.cfg.overwide = .mask ∨ s.din.toNat ≤ 1) → s.regUsed.toNat = 7 →
      s.bytesUsed + 1 ≤ s.cap → s.windowFits →
      exec .writeBit s = .next { s with
        mem := s.mem.write (s.base + s.bytesUsed) (s.reg ||| (BitVec.ofBool (s.din.getLsbD 0)).setWidth 8),
        bytesUsed := s.bytesUsed + 1, reg := 0, regUsed := 0 })

/-- STUFF b (R76): nothing on a byte boundary, whatever the capacity; else one byte is stored, its free bits the stuff bit.
Before that its two faults. -/
def Obligations.StuffPadsToTheByteBoundary : Prop :=
  ∀ (b : Bool) (s : State),
    (s.mode = .idle ∨ s.mode = .read → exec (.stuff b) s = .next (takeFault .modeViolation s)) ∧
    (s.mode = .write → s.regUsed = 0 → exec (.stuff b) s = .next s) ∧
    (s.mode = .write → s.regUsed ≠ 0 → s.cap < s.bytesUsed + 1 →
      exec (.stuff b) s = .next (takeFault .capacityExceeded s)) ∧
    (s.mode = .write → 1 ≤ s.regUsed.toNat → s.regUsed.toNat ≤ 7 → s.bytesUsed + 1 ≤ s.cap → s.windowFits →
      exec (.stuff b) s = .next { s with
        mem := s.mem.write (s.base + s.bytesUsed)
          (s.reg ||| ((if b then (0xFF : Byte) else 0x00) >>> s.regUsed.toNat)),
        bytesUsed := s.bytesUsed + 1, reg := 0, regUsed := 0 })

/-- FLUSH (R77, R78): nothing on a byte boundary; else the pending bits are stored over a byte of zeros; the session goes on.
Before that its two faults. It is STUFF 0, in every state. -/
def Obligations.FlushStoresThePartialByte : Prop :=
  ∀ s : State,
    (s.mode = .idle ∨ s.mode = .read → exec .flush s = .next (takeFault .modeViolation s)) ∧
    (s.mode = .write → s.regUsed = 0 → exec .flush s = .next s) ∧
    (s.mode = .write → s.regUsed ≠ 0 → s.cap < s.bytesUsed + 1 →
      exec .flush s = .next (takeFault .capacityExceeded s)) ∧
    (s.mode = .write → 1 ≤ s.regUsed.toNat → s.regUsed.toNat ≤ 7 → s.bytesUsed + 1 ≤ s.cap → s.windowFits →
      exec .flush s = .next { s with
        mem := s.mem.write (s.base + s.bytesUsed) s.reg,
        bytesUsed := s.bytesUsed + 1, reg := 0, regUsed := 0 }) ∧
    exec .flush s = exec (.stuff false) s

/-- R74's corner case: WRITE_BITS of width 1 is WRITE_BIT, in every state, its faults too. -/
def Obligations.WriteBitsOfWidthOneIsWriteBit : Prop :=
  ∀ s : State, exec (.writeBits 1) s = exec .writeBit s

/-- R58 under the mask policy: only DIN[n − 1 : 0] is written; the bits above make no difference to anything. -/
def Obligations.MaskPolicyIgnoresTheHighBits : Prop :=
  ∀ (n : Width) (s t : State) (d : Data), s.cfg.overwide = .mask →
    (∀ j, j < n.toNat → d.getLsbD j = s.din.getLsbD j) → exec (.writeBits n) s = .next t →
    exec (.writeBits n) { s with port := { s.port with din := d } } =
      .next { t with port := { t.port with din := d } }

/-- R72: a write command that does not fault commits exactly Commits(k) bytes for its k bits and leaves the rest pending;
one whose bytes do not fit faults with nothing written. -/
def Obligations.CommitsIsTheNumberOfBytesStored : Prop :=
  ∀ (i : Instr) (s t : State), neededMode i = some .write → s.mode = .write → s.WriteCursor → s.windowFits →
    exec i s = .next t →
    (t.mode ≠ .faulted →
      t.bytesUsed = s.bytesUsed + (s.regUsed.toNat + appendCount i s) / 8 ∧
      8 * t.bytesUsed + t.regUsed.toNat = 8 * s.bytesUsed + s.regUsed.toNat + appendCount i s ∧
      (0 < appendCount i s → t.bytesUsed ≤ s.cap)) ∧
    (s.cap < s.bytesUsed + (s.regUsed.toNat + appendCount i s) / 8 → 0 < appendCount i s →
      t.mode = .faulted ∧ t.mem = s.mem ∧ t.reg = s.reg ∧ t.regUsed = s.regUsed ∧ t.bytesUsed = s.bytesUsed)

/-- The frame of the write commands, from every state (R71; the spec's inferences R29 and R42): the window, DOUT and the configuration stay; memory
changes at most at the Commits(k) addresses from BASE + BYTES_USED on; without a fault MODE and the record stay. -/
def Obligations.WriteCommandsTouchOnlyTheirBytes : Prop :=
  ∀ (i : Instr) (s t : State), neededMode i = some .write → exec i s = .next t →
    t.base = s.base ∧ t.cap = s.cap ∧ t.dout = s.dout ∧ t.cfg = s.cfg ∧ t.port = s.port ∧
    t.hostMoves = s.hostMoves ∧
    (∀ a, ¬ (s.base + s.bytesUsed ≤ a ∧ a < s.base + s.bytesUsed + s.commits (appendCount i s)) →
      t.mem.read a = s.mem.read a) ∧
    (t.mode ≠ .faulted →
      t.mode = s.mode ∧ t.faultCode = s.faultCode ∧ t.faultMode = s.faultMode ∧ t.faultCmd = s.faultCmd) ∧
    (t.mode = .faulted → t.bytesUsed = s.bytesUsed ∧ t.reg = s.reg ∧ t.regUsed = s.regUsed ∧
      ∀ a, t.mem.read a = s.mem.read a)

/-- In a write session with no fault the committed bytes and REG hold, bit for bit, the concatenation of what its commands
appended since the attach. This is R79, which the spec infers from R71, R74, R75, R76 and R77. -/
def Obligations.WriteSessionHoldsItsStream : Prop :=
  ∀ (s : State) (bits : List Bool), WriteSession s bits →
    bits.length = 8 * s.bytesUsed + s.regUsed.toNat ∧ s.regUsed.toNat ≤ 7 ∧
    (∀ k, k < 8 * s.bytesUsed →
      some ((s.mem.read (s.base + k / 8)).getLsbD (7 - k % 8)) = bits[k]?) ∧
    (∀ j, j < s.regUsed.toNat → some (s.reg.getLsbD (7 - j)) = bits[8 * s.bytesUsed + j]?)

/-- After a FLUSH with no fault BYTES_USED is the stream's length in bytes, and every bit written is in memory. This is R80,
which the spec infers from R77 and R79. -/
def Obligations.FlushLeavesTheLengthInBytesUsed : Prop :=
  ∀ (s t : State) (bits : List Bool), WriteSession s bits → exec .flush s = .next t → t.mode = .write →
    t.bytesUsed = (bits.length + 7) / 8 ∧
    ∀ k, k < bits.length → some ((t.mem.read (t.base + k / 8)).getLsbD (7 - k % 8)) = bits[k]?

/-! ### Reading -/

/-- READ_BITS n: its three faults, in their order (R83); else, at stream position p, bit n − 1 − j of DOUT is stream bit
p + j, the bits above are 0, and the cursor moves n bits, fetching only the bytes it needs. That the pseudocode of R81 and R83
returns these bits is R86, and that BYTES_USED is BITPOS over 8, rounded up, is R24: both are inferences of the spec. -/
def Obligations.ReadBitsReturnsTheStreamBits : Prop :=
  ∀ (n : Width) (s : State),
    (s.mode = .idle ∨ s.mode = .write → exec (.readBits n) s = .next (takeFault .modeViolation s)) ∧
    (s.mode = .read → ¬ legalWidth n → exec (.readBits n) s = .next (takeFault .badWidth s)) ∧
    (s.mode = .read → legalWidth n → 8 * s.cap < s.bitpos + n.toNat →
      exec (.readBits n) s = .next (takeFault .readOverrun s)) ∧
    (s.mode = .read → legalWidth n → s.bitpos + n.toNat ≤ 8 * s.cap → s.windowFits → s.ReadCursor →
      ∃ t, exec (.readBits n) s = .next t ∧
        (∀ j, j < n.toNat → t.dout.getLsbD (n.toNat - 1 - j) =
          (s.mem.read (s.base + (s.bitpos + j) / 8)).getLsbD (7 - (s.bitpos + j) % 8)) ∧
        (∀ k, n.toNat ≤ k → t.dout.getLsbD k = false) ∧
        t.bitpos = s.bitpos + n.toNat ∧ t.bytesUsed = (s.bitpos + n.toNat + 7) / 8 ∧
        t.regUsed.toNat = 8 * t.bytesUsed - t.bitpos ∧
        t.reg = s.mem.read (s.base + t.bytesUsed - 1) <<< (8 - t.regUsed.toNat) ∧
        t = { s with reg := t.reg, regUsed := t.regUsed, bytesUsed := t.bytesUsed, dout := t.dout })

/-- PEEK_BITS n (R84): it faults where READ_BITS n does, with the same code; where READ_BITS n answers it puts into DOUT what
READ_BITS n would, and changes nothing else. -/
def Obligations.PeekBitsMovesNothing : Prop :=
  ∀ (n : Width) (s : State),
    (s.mode = .idle ∨ s.mode = .write → exec (.peekBits n) s = .next (takeFault .modeViolation s)) ∧
    (s.mode = .read → ¬ legalWidth n → exec (.peekBits n) s = .next (takeFault .badWidth s)) ∧
    (s.mode = .read → legalWidth n → 8 * s.cap < s.bitpos + n.toNat →
      exec (.peekBits n) s = .next (takeFault .readOverrun s)) ∧
    (s.mode = .read → legalWidth n → s.bitpos + n.toNat ≤ 8 * s.cap → s.windowFits →
      ∃ t, exec (.readBits n) s = .next t ∧ exec (.peekBits n) s = .next { s with dout := t.dout })

/-- PEEK_BITS n then READ_BITS n returns the same DOUT twice, and leaves the state READ_BITS n alone leaves. This is R87,
which the spec infers from R84 and R86. -/
def Obligations.PeekThenReadIsRead : Prop :=
  ∀ (n : Width) (s u : State), exec (.peekBits n) s = .next u →
    exec (.readBits n) u = exec (.readBits n) s ∧
    ∀ t, exec (.readBits n) u = .next t → t.dout = u.dout

/-- A field reads the same as the concatenation of reads of its parts, and leaves the same cursor (the spec's inference R39,
the part about reads). -/
def Obligations.ReadsOfThePartsConcatenate : Prop :=
  ∀ (n m k : Width) (s : State), s.mode = .read → legalWidth n → legalWidth m → legalWidth k →
    k.toNat = n.toNat + m.toNat → s.bitpos + k.toNat ≤ 8 * s.cap → s.windowFits → s.ReadCursor →
    ∃ t u, exec (.readBits n) s = .next t ∧ exec (.readBits m) t = .next u ∧
      exec (.readBits k) s = .next { u with dout := (t.dout <<< m.toNat) ||| u.dout }

/-- READ_ALIGN (R85): the rest of the byte is dropped, unchecked and without a memory access, and BITPOS is the next
multiple of 8; outside READ it faults. -/
def Obligations.ReadAlignDropsTheRestOfTheByte : Prop :=
  ∀ s : State,
    (s.mode = .read → exec .readAlign s = .next { s with reg := 0x00, regUsed := 0 }) ∧
    (s.mode = .read → s.ReadCursor → ∀ t, exec .readAlign s = .next t →
      t.bitpos = 8 * s.bytesUsed ∧ t.bitpos = (s.bitpos + 7) / 8 * 8) ∧
    (s.mode = .idle ∨ s.mode = .write → exec .readAlign s = .next (takeFault .modeViolation s))

/-- The frame of the read commands, from every state (R81; the spec's inferences R29 and R43): no byte of memory, no window register; without a fault not
MODE and not the record; READ_ALIGN keeps BYTES_USED and DOUT, PEEK_BITS the whole cursor. -/
def Obligations.ReadCommandsStoreNothing : Prop :=
  ∀ (i : Instr) (s t : State), neededMode i = some .read → exec i s = .next t →
    (∀ a, t.mem.read a = s.mem.read a) ∧ t.base = s.base ∧ t.cap = s.cap ∧ t.cfg = s.cfg ∧ t.port = s.port ∧
    t.hostMoves = s.hostMoves ∧
    (t.mode ≠ .faulted →
      t.mode = s.mode ∧ t.faultCode = s.faultCode ∧ t.faultMode = s.faultMode ∧ t.faultCmd = s.faultCmd) ∧
    (t.mode = .faulted → t.bytesUsed = s.bytesUsed ∧ t.reg = s.reg ∧ t.regUsed = s.regUsed ∧ t.dout = s.dout) ∧
    (i = .readAlign → t.bytesUsed = s.bytesUsed ∧ t.dout = s.dout) ∧
    (∀ n, i = .peekBits n → t.bytesUsed = s.bytesUsed ∧ t.reg = s.reg ∧ t.regUsed = s.regUsed)

/-- What a write session with no fault wrote and flushed, a read session over the same bytes reads back: each field modulo
2^n, READ_ALIGN at the places of the padding, and no fault. This is R88, which the spec infers from R79 and R86. -/
def Obligations.WrittenFieldsReadBack : Prop :=
  ∀ (xs : List StreamItem) (w r : Port) (s t u : State),
    decode w.cmd = .ok .attachW → decode r.cmd = .ok .attachR →
    runCommands (w :: xs.map StreamItem.writePort ++ [portOf .flush]) s = .next t → t.mode = .write →
    performMove (.command r) t = .next u → u.mode = .read → u.base = t.base → t.cap ≤ u.cap →
    readItems xs u = some (xs.filterMap StreamItem.value)

/-! ### The whole machine -/

/-- Which command writes which register when it does not fault, the whole table; a faulting command writes MODE and the record
alone, and a command in FAULTED nothing. This is R29, which the spec infers from the command rules. -/
def Obligations.CommandsWriteOnlyTheTableRegisters : Prop :=
  ∀ (i : Instr) (s t : State), s.regUsed.toNat ≤ 7 → exec i s = .next t →
    (s.mode = .faulted → t = s) ∧
    (s.mode ≠ .faulted → t.mode = .faulted →
      t = { s with mode := t.mode, faultCode := t.faultCode, faultMode := t.faultMode, faultCmd := t.faultCmd }) ∧
    (s.mode ≠ .faulted → t.mode ≠ .faulted →
      match i with
      | .attachW => t = { s with mode := .write, base := s.abase, cap := s.alen, bytesUsed := 0, reg := 0, regUsed := 0 }
      | .attachR => t = { s with mode := .read, base := s.abase, cap := s.alen, bytesUsed := 0, reg := 0, regUsed := 0 }
      | .writeBits _ => t = { s with bytesUsed := t.bytesUsed, reg := t.reg, regUsed := t.regUsed, mem := t.mem }
      | .writeBit => t = { s with bytesUsed := t.bytesUsed, reg := t.reg, regUsed := t.regUsed, mem := t.mem }
      | .stuff _ => (s.regUsed = 0 ∧ t = s) ∨
          (s.regUsed ≠ 0 ∧ t = { s with bytesUsed := s.bytesUsed + 1, reg := 0, regUsed := 0, mem := t.mem })
      | .flush => (s.regUsed = 0 ∧ t = s) ∨
          (s.regUsed ≠ 0 ∧ t = { s with bytesUsed := s.bytesUsed + 1, reg := 0, regUsed := 0, mem := t.mem })
      | .readBits _ => t = { s with bytesUsed := t.bytesUsed, reg := t.reg, regUsed := t.regUsed, dout := t.dout }
      | .peekBits _ => t = { s with dout := t.dout }
      | .readAlign => t = { s with reg := 0, regUsed := 0 })

/-- The machine's invariant holds at reset. It speaks of the model's choices at reset too: the configuration (log 1) and the
empty memory (log 4). -/
def Obligations.ResetStateMeetsTheInvariant : Prop := State.reset.Inv

/-- Every step keeps the invariant, from every state that meets it: the window inside memory (R15, R16), the cursor of the
mode (the spec's inferences R23, R24, R25), REG the copy of the fetched byte (its inference R31, with R48), the fault record
(R21), and memory's canonical form (the model's own, log 4). -/
def Obligations.EveryStepKeepsTheInvariant : Prop :=
  ∀ s t : State, s.Inv → step s = .next t → t.Inv

/-- R26: the consumed-byte count never exceeds the capacity, whatever the rest of the state. -/
def Obligations.BytesUsedNeverExceedsCapacity : Prop :=
  ∀ s t : State, s.bytesUsed ≤ s.cap → step s = .next t → t.bytesUsed ≤ t.cap

/-- A command neither reads nor writes memory outside the window, and none at all in IDLE or FAULTED: with other bytes outside
it, it does the same, and leaves them as they were. This is R36, which the spec infers from R42 and R43. -/
def Obligations.NoAccessOutsideTheWindow : Prop :=
  ∀ (i : Instr) (s : State) (m : Memory), s.windowFits →
    ((∀ a, s.inWindow a → m.read a = s.mem.read a) →
      (∀ t, exec i s = .next t → ∃ m', exec i { s with mem := m } = .next { t with mem := m' } ∧
        ∀ a, (s.inWindow a → m'.read a = t.mem.read a) ∧
          (¬ s.inWindow a → t.mem.read a = s.mem.read a ∧ m'.read a = m.read a)) ∧
      (∀ r, exec i s = .refused r → exec i { s with mem := m } = .refused r) ∧
      (∀ f, exec i s ≠ .fault f)) ∧
    (s.mode = .idle ∨ s.mode = .faulted → ∀ t, exec i s = .next t →
      t.mem = s.mem ∧ exec i { s with mem := m } = .next { t with mem := m })

/-- R55: a command ignores the buses it does not read: only WRITE_BITS and WRITE_BIT read DIN, only the attaches ABASE and
ALEN. -/
def Obligations.UnreadBusesAreIgnored : Prop :=
  ∀ (i : Instr) (s t : State) (d : Data) (ab al : Nat), exec i s = .next t →
    (readsDin i = false →
      exec i { s with port := { s.port with din := d } } = .next { t with port := { s.port with din := d } }) ∧
    (readsWindow i = false →
      exec i { s with port := { s.port with abase := ab, alen := al } } =
        .next { t with port := { s.port with abase := ab, alen := al } })

/-- R33: no step changes the configuration. -/
def Obligations.ConfigurationIsFixed : Prop :=
  ∀ s t : State, step s = .next t → t.cfg = s.cfg

/-- In every state that meets the invariant every command word runs: the model stops only on an attach over a device (R45,
R47, R53). -/
def Obligations.EveryCommandRunsInARun : Prop :=
  ∀ (s : State) (p : Port), s.Inv →
    (∃ t, performMove (.command p) s = .next t) ∨
    (performMove (.command p) s = .refused .attachOverDevice ∧
      (decode p.cmd = .ok .attachW ∨ decode p.cmd = .ok .attachR))
end

