-- ==== Sys2Proof/Laws/State.lean ====
section
/-! SUPPORT. Laws.State: what each named update of the state leaves in each field. -/

namespace Sys2Proof.Machine

/-! ### Fault entry (R98) -/

@[simp] theorem takeFault_mode (c : FaultCode) (s : State) : (takeFault c s).mode = .faulted := rfl
@[simp] theorem takeFault_base (c : FaultCode) (s : State) : (takeFault c s).base = s.base := rfl
@[simp] theorem takeFault_cap (c : FaultCode) (s : State) : (takeFault c s).cap = s.cap := rfl
@[simp] theorem takeFault_bytesUsed (c : FaultCode) (s : State) : (takeFault c s).bytesUsed = s.bytesUsed := rfl
@[simp] theorem takeFault_reg (c : FaultCode) (s : State) : (takeFault c s).reg = s.reg := rfl
@[simp] theorem takeFault_regUsed (c : FaultCode) (s : State) : (takeFault c s).regUsed = s.regUsed := rfl
@[simp] theorem takeFault_dout (c : FaultCode) (s : State) : (takeFault c s).dout = s.dout := rfl
@[simp] theorem takeFault_faultCode (c : FaultCode) (s : State) : (takeFault c s).faultCode = c := rfl
@[simp] theorem takeFault_faultMode (c : FaultCode) (s : State) : (takeFault c s).faultMode = s.mode := rfl
@[simp] theorem takeFault_faultCmd (c : FaultCode) (s : State) : (takeFault c s).faultCmd = s.port.cmd := rfl
@[simp] theorem takeFault_cfg (c : FaultCode) (s : State) : (takeFault c s).cfg = s.cfg := rfl
@[simp] theorem takeFault_mem (c : FaultCode) (s : State) : (takeFault c s).mem = s.mem := rfl
@[simp] theorem takeFault_port (c : FaultCode) (s : State) : (takeFault c s).port = s.port := rfl
@[simp] theorem takeFault_hostMoves (c : FaultCode) (s : State) : (takeFault c s).hostMoves = s.hostMoves := rfl

/-! ### Reset (R106) -/

@[simp] theorem assertReset_mode (s : State) : (assertReset s).mode = .idle := rfl
@[simp] theorem assertReset_base (s : State) : (assertReset s).base = 0 := rfl
@[simp] theorem assertReset_cap (s : State) : (assertReset s).cap = 0 := rfl
@[simp] theorem assertReset_bytesUsed (s : State) : (assertReset s).bytesUsed = 0 := rfl
@[simp] theorem assertReset_reg (s : State) : (assertReset s).reg = 0 := rfl
@[simp] theorem assertReset_regUsed (s : State) : (assertReset s).regUsed = 0 := rfl
@[simp] theorem assertReset_dout (s : State) : (assertReset s).dout = 0 := rfl
@[simp] theorem assertReset_faultCode (s : State) : (assertReset s).faultCode = .none := rfl
@[simp] theorem assertReset_faultMode (s : State) : (assertReset s).faultMode = .idle := rfl
@[simp] theorem assertReset_faultCmd (s : State) : (assertReset s).faultCmd = 0 := rfl
@[simp] theorem assertReset_cfg (s : State) : (assertReset s).cfg = s.cfg := rfl
@[simp] theorem assertReset_mem (s : State) : (assertReset s).mem = s.mem := rfl
@[simp] theorem assertReset_port (s : State) : (assertReset s).port = s.port := rfl
@[simp] theorem assertReset_hostMoves (s : State) : (assertReset s).hostMoves = s.hostMoves := rfl

/-! ### An accepted attach (R67, R68) -/

@[simp] theorem openSession_mode (m : Mode) (s : State) : (openSession m s).mode = m := rfl
@[simp] theorem openSession_base (m : Mode) (s : State) : (openSession m s).base = s.abase := rfl
@[simp] theorem openSession_cap (m : Mode) (s : State) : (openSession m s).cap = s.alen := rfl
@[simp] theorem openSession_bytesUsed (m : Mode) (s : State) : (openSession m s).bytesUsed = 0 := rfl
@[simp] theorem openSession_reg (m : Mode) (s : State) : (openSession m s).reg = 0 := rfl
@[simp] theorem openSession_regUsed (m : Mode) (s : State) : (openSession m s).regUsed = 0 := rfl
@[simp] theorem openSession_dout (m : Mode) (s : State) : (openSession m s).dout = s.dout := rfl
@[simp] theorem openSession_faultCode (m : Mode) (s : State) : (openSession m s).faultCode = s.faultCode := rfl
@[simp] theorem openSession_faultMode (m : Mode) (s : State) : (openSession m s).faultMode = s.faultMode := rfl
@[simp] theorem openSession_faultCmd (m : Mode) (s : State) : (openSession m s).faultCmd = s.faultCmd := rfl
@[simp] theorem openSession_cfg (m : Mode) (s : State) : (openSession m s).cfg = s.cfg := rfl
@[simp] theorem openSession_mem (m : Mode) (s : State) : (openSession m s).mem = s.mem := rfl
@[simp] theorem openSession_port (m : Mode) (s : State) : (openSession m s).port = s.port := rfl
@[simp] theorem openSession_hostMoves (m : Mode) (s : State) : (openSession m s).hostMoves = s.hostMoves := rfl

end Sys2Proof.Machine
end

