-- ==== Sys2Proof/Laws/Checked.lean ====
section
/-! SUPPORT. Laws.Checked: what a command can do before its own effect: nothing in FAULTED (R100), the first fault of its
list (R99), or its effect. -/

namespace Sys2Proof.Machine

variable {checks : List (Bool × FaultCode)} {effect : Result} {s t : State}

/-- In FAULTED a command has no effect (R100). -/
theorem runChecked_faulted (h : s.mode = .faulted) : runChecked checks effect s = .next s := by
  simp [runChecked, h]

theorem runChecked_fault {c : FaultCode} (h : s.mode ≠ .faulted) (hc : firstFault checks = some c) :
    runChecked checks effect s = .next (takeFault c s) := by
  simp [runChecked, h, hc]

theorem runChecked_effect (h : s.mode ≠ .faulted) (hc : firstFault checks = none) :
    runChecked checks effect s = effect := by
  simp [runChecked, h, hc]

/-- The three ways a command ends: no effect, fault entry, or its effect. -/
theorem runChecked_cases (checks : List (Bool × FaultCode)) (effect : Result) (s : State) :
    (s.mode = .faulted ∧ runChecked checks effect s = .next s) ∨
    (s.mode ≠ .faulted ∧ ∃ c, firstFault checks = some c ∧ runChecked checks effect s = .next (takeFault c s)) ∨
    (s.mode ≠ .faulted ∧ firstFault checks = none ∧ runChecked checks effect s = effect) := by
  by_cases h : s.mode = .faulted
  · exact .inl ⟨h, runChecked_faulted h⟩
  · cases hc : firstFault checks with
    | some c => exact .inr (.inl ⟨h, c, rfl, runChecked_fault h hc⟩)
    | none => exact .inr (.inr ⟨h, rfl, runChecked_effect h hc⟩)

@[simp] theorem firstFault_nil : firstFault [] = none := rfl

@[simp] theorem firstFault_cons (b : Bool) (c : FaultCode) (l : List (Bool × FaultCode)) :
    firstFault ((b, c) :: l) = if b = true then some c else firstFault l := by
  cases b <;> rfl

/-- A fault raised is one of the list. -/
theorem mem_of_firstFault {c : FaultCode} (h : firstFault checks = some c) : (true, c) ∈ checks := by
  induction checks with
  | nil => simp at h
  | cons d l ih =>
    obtain ⟨b, e⟩ := d
    cases b
    · exact List.mem_cons_of_mem _ (ih (by simpa using h))
    · have : e = c := by simpa using h
      simp [this]

/-- No fault of a list holds exactly when none of its conditions does. -/
theorem firstFault_none : firstFault checks = none ↔ ∀ p ∈ checks, p.1 = false := by
  induction checks with
  | nil => simp
  | cons d l ih =>
    obtain ⟨b, e⟩ := d
    cases b <;> simp [ih]

theorem finish_next {r : Except Fault State} : finish r = .next t ↔ r = .ok t := by
  cases r <;> simp [finish]

end Sys2Proof.Machine
end

