-- ==== Sys2Proof/Laws/Memory.lean ====
section
/-! SUPPORT. Laws.Memory: reading after writing (R40, R41), and that every memory operation keeps the canonical form. -/

namespace Sys2Proof.Machine

variable (m : Memory) (a b : Nat) (v : Byte)

theorem Memory.read_clear : (Memory.clear m a).read b = if a = b then unlistedByte else m.read b := by
  induction m with
  | nil => simp [Memory.clear, Memory.read]
  | cons c rest ih =>
    obtain ⟨k, w⟩ := c
    by_cases hk : k = a
    · subst hk
      by_cases hb : k = b <;> simp_all [Memory.clear, Memory.read]
    · by_cases hb : k = b
      · subst hb
        simp [Memory.clear, Memory.read, hk, Ne.symm hk]
      · simp [Memory.clear, Memory.read, hk, hb, ih]

/-- The address of every cell `clear` leaves is another one. -/
theorem Memory.fst_ne_of_mem_clear {c : Host.Cell} (h : c ∈ Memory.clear m a) : c.1 ≠ a := by
  induction m with
  | nil => simp [Memory.clear] at h
  | cons d rest ih =>
    obtain ⟨k, w⟩ := d
    by_cases hk : k = a
    · exact ih (by simpa [Memory.clear, hk] using h)
    · rcases (by simpa [Memory.clear, hk] using h : c = (k, w) ∨ c ∈ Memory.clear rest a) with rfl | h
      · exact hk
      · exact ih h

theorem Memory.mem_of_mem_clear {c : Host.Cell} (h : c ∈ Memory.clear m a) : c ∈ m := by
  induction m with
  | nil => simp [Memory.clear] at h
  | cons d rest ih =>
    obtain ⟨k, w⟩ := d
    by_cases hk : k = a
    · exact List.mem_cons_of_mem _ (ih (by simpa [Memory.clear, hk] using h))
    · rcases (by simpa [Memory.clear, hk] using h : c = (k, w) ∨ c ∈ Memory.clear rest a) with rfl | h
      · simp
      · exact List.mem_cons_of_mem _ (ih h)

theorem Memory.mem_insert {c : Host.Cell} : c ∈ Memory.insert a v m ↔ c = (a, v) ∨ c ∈ m := by
  induction m with
  | nil => simp [Memory.insert]
  | cons d rest ih =>
    obtain ⟨k, w⟩ := d
    by_cases hk : a < k
    · simp [Memory.insert, hk]
    · simp only [Memory.insert, hk, if_false, List.mem_cons, ih]
      tauto

theorem Memory.read_insert (hm : ∀ c ∈ m, c.1 ≠ a) :
    (Memory.insert a v m).read b = if a = b then v else m.read b := by
  induction m with
  | nil => simp [Memory.insert, Memory.read]
  | cons d rest ih =>
    obtain ⟨k, w⟩ := d
    have hka : k ≠ a := hm (k, w) (by simp)
    have hrest : ∀ c ∈ rest, c.1 ≠ a := fun c hc => hm c (List.mem_cons_of_mem _ hc)
    by_cases hk : a < k
    · simp [Memory.insert, hk, Memory.read]
    · by_cases hb : k = b
      · subst hb
        simp [Memory.insert, hk, Memory.read, Ne.symm hka]
      · simp [Memory.insert, hk, Memory.read, hb, ih hrest]

/-- A byte read after a write of one byte (R40, R41). -/
theorem Memory.read_write : (m.write a v).read b = if a = b then v else m.read b := by
  unfold Memory.write
  split
  · next h => rw [Memory.read_clear, h]
  · rw [Memory.read_insert _ _ _ _ (fun c hc => Memory.fst_ne_of_mem_clear m a hc), Memory.read_clear]
    split <;> rfl

@[simp] theorem Memory.read_write_same : (m.write a v).read a = v := by
  simp [Memory.read_write]

theorem Memory.read_write_other (h : a ≠ b) : (m.write a v).read b = m.read b := by
  simp [Memory.read_write, h]

theorem Memory.wf_nil : Memory.wf [] := by simp [Memory.wf]

theorem Memory.wf_clear (h : m.wf) : Memory.wf (Memory.clear m a) := by
  refine ⟨?_, fun c hc => h.2 c (Memory.mem_of_mem_clear m a hc)⟩
  have hp := h.1
  clear h
  induction m with
  | nil => simp [Memory.clear]
  | cons d rest ih =>
    obtain ⟨k, w⟩ := d
    rw [List.pairwise_cons] at hp
    by_cases hk : k = a
    · simpa [Memory.clear, hk] using ih hp.2
    · simp only [Memory.clear, hk, if_false, List.pairwise_cons]
      exact ⟨fun c hc => hp.1 c (Memory.mem_of_mem_clear rest a hc), ih hp.2⟩

theorem Memory.wf_insert (h : m.wf) (hm : ∀ c ∈ m, c.1 ≠ a) (hv : v ≠ unlistedByte) :
    Memory.wf (Memory.insert a v m) := by
  refine ⟨?_, fun c hc => ?_⟩
  · have hp := h.1
    clear h
    induction m with
    | nil => simp [Memory.insert]
    | cons d rest ih =>
      obtain ⟨k, w⟩ := d
      have hka : k ≠ a := hm (k, w) (by simp)
      rw [List.pairwise_cons] at hp
      by_cases hk : a < k
      · simp only [Memory.insert, hk, if_true]
        refine List.pairwise_cons.2 ⟨fun c hc => ?_, List.pairwise_cons.2 hp⟩
        rcases List.mem_cons.1 hc with rfl | hc
        · exact hk
        · exact lt_trans hk (hp.1 c hc)
      · simp only [Memory.insert, hk, if_false, List.pairwise_cons]
        refine ⟨fun c hc => ?_, ih (fun c hc => hm c (List.mem_cons_of_mem _ hc)) hp.2⟩
        rcases (Memory.mem_insert rest a v).1 hc with rfl | hc
        · show k < a
          omega
        · exact hp.1 c hc
  · rcases (Memory.mem_insert m a v).1 hc with rfl | hc
    · exact hv
    · exact h.2 c hc

/-- A write keeps the canonical form. -/
theorem Memory.wf_write (h : m.wf) : (m.write a v).wf := by
  unfold Memory.write
  split
  · exact Memory.wf_clear m a h
  · next hv =>
    exact Memory.wf_insert _ _ _ (Memory.wf_clear m a h) (fun c hc => Memory.fst_ne_of_mem_clear m a hc) hv

/-- A write below a bound keeps the cells below it. -/
theorem Memory.bound_write {bound : Nat} (h : ∀ c ∈ m, c.1 < bound) (ha : a < bound) :
    ∀ c ∈ m.write a v, c.1 < bound := by
  intro c hc
  unfold Memory.write at hc
  split at hc
  · exact h c (Memory.mem_of_mem_clear m a hc)
  · rcases (Memory.mem_insert _ a v).1 hc with rfl | hc
    · exact ha
    · exact h c (Memory.mem_of_mem_clear m a hc)

/-- Writing back what an address reads as changes no byte. -/
theorem Memory.read_write_self : (m.write a (m.read a)).read b = m.read b := by
  rw [Memory.read_write]
  split
  · next h => rw [h]
  · rfl

/-- An address below every cell of a canonical memory is unlisted. -/
theorem Memory.read_of_lt {m : Memory} {a : Nat} (h : ∀ c ∈ m, a < c.1) : m.read a = unlistedByte := by
  induction m with
  | nil => rfl
  | cons d rest ih =>
    obtain ⟨k, w⟩ := d
    have hk : a < k := h (k, w) (by simp)
    simp [Memory.read, Nat.ne_of_gt hk, ih fun c hc => h c (List.mem_cons_of_mem _ hc)]

/-- Memories in the canonical form that read alike everywhere are equal data. -/
theorem Memory.eq_of_read {m m' : Memory} (h : m.wf) (h' : m'.wf) (hr : ∀ a, m.read a = m'.read a) : m = m' := by
  induction m generalizing m' with
  | nil =>
    cases m' with
    | nil => rfl
    | cons d rest =>
      exact absurd (by simpa [Memory.read] using (hr d.1).symm) (h'.2 d (by simp))
  | cons c rest ih =>
    cases m' with
    | nil => exact absurd (by simpa [Memory.read] using hr c.1) (h.2 c (by simp))
    | cons d rest' =>
      have hc := List.pairwise_cons.1 h.1
      have hd := List.pairwise_cons.1 h'.1
      have hfst : c.1 = d.1 := by
        rcases lt_trichotomy c.1 d.1 with hlt | heq | hgt
        · have h0 : Memory.read (d :: rest') c.1 = unlistedByte := Memory.read_of_lt fun e he => by
            rcases List.mem_cons.1 he with rfl | he
            · exact hlt
            · exact lt_trans hlt (hd.1 e he)
          exact absurd (by simpa [Memory.read] using (hr c.1).trans h0) (h.2 c (by simp))
        · exact heq
        · have h0 : Memory.read (c :: rest) d.1 = unlistedByte := Memory.read_of_lt fun e he => by
            rcases List.mem_cons.1 he with rfl | he
            · exact hgt
            · exact lt_trans hgt (hc.1 e he)
          exact absurd (by simpa [Memory.read] using (hr d.1).symm.trans h0) (h'.2 d (by simp))
      have hsnd : c.2 = d.2 := by simpa [Memory.read, hfst] using hr c.1
      have hcd : c = d := Prod.ext hfst hsnd
      subst hcd
      congr 1
      refine ih ⟨hc.2, fun e he => h.2 e (by simp [he])⟩ ⟨hd.2, fun e he => h'.2 e (by simp [he])⟩ fun a => ?_
      by_cases ha : c.1 = a
      · subst ha
        rw [Memory.read_of_lt hc.1, Memory.read_of_lt hd.1]
      · simpa [Memory.read, ha] using hr a

end Sys2Proof.Machine
end

