-- ==== Sys2Proof/Laws/Cursor.lean ====
section
/-! SUPPORT. Laws.Cursor: everything WriteBit (R71) and ReadBit (R81), and their repetition, can do. -/

namespace Sys2Proof.Machine

variable {s t u : State}

/-! ### Repetition over a list of bits -/

/-- WriteBit of each bit in turn. -/
def writeAll : List Bool → State → Except Fault State
  | [], s => .ok s
  | b :: bs, s =>
    match writeBit b s with
    | .ok t => writeAll bs t
    | .error e => .error e

theorem fieldBits_succ (v : Data) (n : Nat) : fieldBits v (n + 1) = v.getLsbD n :: fieldBits v n := by
  unfold fieldBits
  rw [List.range_succ_eq_map, List.map_cons, List.map_map]
  congr 1
  refine List.map_congr_left fun j _ => ?_
  simp only [Function.comp_apply, Nat.succ_eq_add_one, Nat.add_sub_cancel]
  congr 1
  omega

@[simp] theorem fieldBits_length (v : Data) (n : Nat) : (fieldBits v n).length = n := by simp [fieldBits]

/-- WRITE_BITS writes the field's bits, most significant first (R74). -/
theorem writeField_eq (v : Data) (n : Nat) (s : State) : writeField v n s = writeAll (fieldBits v n) s := by
  induction n generalizing s with
  | zero => rfl
  | succ n ih =>
    rw [fieldBits_succ, writeField, writeAll]
    cases writeBit (v.getLsbD n) s <;> simp [ih]

theorem writeAll_singleton (b : Bool) (s : State) : writeAll [b] s = writeBit b s := by
  rw [writeAll]
  cases writeBit b s <;> rfl

/-! ### One WriteBit -/

/-- REG with a bit put below its pending bits. -/
abbrev State.placed (s : State) (b : Bool) : Byte :=
  s.reg ||| ((BitVec.ofBool b).setWidth 8 <<< (7 - s.regUsed.toNat))

theorem placed_bit (r : Byte) (b : Bool) (u i : Nat) (hi : i < 8) :
    (r ||| ((BitVec.ofBool b).setWidth 8 <<< (7 - u))).getLsbD i = (r.getLsbD i || (decide (i = 7 - u) && b)) := by
  simp only [BitVec.getLsbD_or, BitVec.getLsbD_shiftLeft, BitVec.getLsbD_setWidth, BitVec.getLsbD_ofBool]
  by_cases h : i = 7 - u
  · subst h; simp [hi]
  · have : ¬ (i < 7 - u) → i - (7 - u) ≠ 0 := by omega
    by_cases hlt : i < 7 - u <;> simp [h, hlt, hi, this]

/-- WriteBit below a full byte. -/
theorem writeBit_pending (b : Bool) (h : s.regUsed ≠ 7) :
    writeBit b s = .ok { s with reg := s.placed b, regUsed := s.regUsed + 1 } := by
  have : s.regUsed + 1 ≠ 8 := fun hc => h (by bv_omega)
  simp only [writeBit, this, if_false]

/-- WriteBit of the bit that fills the byte. -/
theorem writeBit_commit (b : Bool) (h : s.regUsed = 7) (ha : s.base + s.bytesUsed < 2 ^ s.cfg.aw) :
    writeBit b s = .ok { s with
      mem := s.mem.write (s.base + s.bytesUsed) (s.placed b), bytesUsed := s.bytesUsed + 1, reg := 0, regUsed := 0 } := by
  have : s.regUsed + 1 = 8 := by rw [h]; rfl
  simp only [writeBit, this, if_true, memWrite, ha]

/-- WriteBit answers unless its commit would lie outside the address space. -/
theorem writeBit_error (b : Bool) (h : s.regUsed = 7) (ha : ¬ s.base + s.bytesUsed < 2 ^ s.cfg.aw) :
    writeBit b s = .error .addressOutsideMemory := by
  simp [writeBit, h, memWrite, ha]

/-! ### The frame of writing, from every state -/

/-- What writing k bits can change (R42): the cursor, and the bytes from BASE + BYTES_USED on that it commits, at most
Commits(k) of them. -/
structure WroteAtMost (s t : State) (k : Nat) : Prop where
  same : t = { s with reg := t.reg, regUsed := t.regUsed, bytesUsed := t.bytesUsed, mem := t.mem }
  grows : s.bytesUsed ≤ t.bytesUsed
  bound : t.bytesUsed ≤ s.bytesUsed + s.commits k
  outside : ∀ a, ¬ (s.base + s.bytesUsed ≤ a ∧ a < s.base + t.bytesUsed) → t.mem.read a = s.mem.read a
  memory : s.MemoryOk → t.MemoryOk

theorem WroteAtMost.refl (s : State) (k : Nat) : WroteAtMost s s k where
  same := rfl
  grows := le_refl _
  bound := Nat.le_add_right _ _
  outside := fun _ _ => rfl
  memory := id

theorem writeBit_frame {b : Bool} (h : writeBit b s = .ok t) : WroteAtMost s t 1 := by
  by_cases h7 : s.regUsed = 7
  · by_cases ha : s.base + s.bytesUsed < 2 ^ s.cfg.aw
    · rw [writeBit_commit b h7 ha] at h
      cases h
      refine ⟨rfl, by simp, by simp [State.commits, h7], fun a hne => ?_, fun hm => ?_⟩
      · exact Memory.read_write_other _ _ _ _ (by simp at hne; omega)
      · exact ⟨Memory.wf_write _ _ _ hm.1, Memory.bound_write _ _ _ hm.2 ha⟩
    · rw [writeBit_error b h7 ha] at h
      cases h
  · rw [writeBit_pending b h7] at h
    cases h
    exact ⟨rfl, le_refl _, Nat.le_add_right _ _, fun a _ => rfl, id⟩

/-- One more bit before k others. -/
theorem commits_succ {b : Bool} {k : Nat} (h : writeBit b s = .ok t) :
    t.bytesUsed + t.commits k ≤ s.bytesUsed + s.commits (k + 1) := by
  by_cases h7 : s.regUsed = 7
  · by_cases ha : s.base + s.bytesUsed < 2 ^ s.cfg.aw
    · rw [writeBit_commit b h7 ha] at h
      cases h
      simp [State.commits, h7]
      omega
    · rw [writeBit_error b h7 ha] at h
      cases h
  · rw [writeBit_pending b h7] at h
    cases h
    have : (s.regUsed + 1).toNat ≤ s.regUsed.toNat + 1 := by bv_omega
    simp only [State.commits]
    omega

theorem WroteAtMost.trans_bit {b : Bool} {k : Nat} (h1 : writeBit b s = .ok t) (h2 : WroteAtMost t u k) :
    WroteAtMost s u (k + 1) := by
  have f := writeBit_frame h1
  have hc := commits_succ (k := k) h1
  have hb : t.base = s.base := by rw [f.same]
  have hcfg : t.cfg = s.cfg := by rw [f.same]
  refine ⟨?_, le_trans f.grows h2.grows, le_trans h2.bound hc, fun a ha => ?_, fun hm => h2.memory (f.memory hm)⟩
  · rw [h2.same, f.same]
  · have h2b := h2.grows
    have hgb := f.grows
    rw [h2.outside a (by rw [hb]; omega), f.outside a (by omega)]

theorem writeAll_frame {bs : List Bool} (h : writeAll bs s = .ok t) : WroteAtMost s t bs.length := by
  induction bs generalizing s with
  | nil => cases h; exact .refl _ _
  | cons b bs ih =>
    rw [writeAll] at h
    cases hb : writeBit b s with
    | error e => rw [hb] at h; cases h
    | ok r => rw [hb] at h; exact .trans_bit hb (ih h)

/-- Writing answers a state wherever the bytes it can commit lie in the address space. -/
theorem writeAll_answers {bs : List Bool}
    (h : s.bytesUsed + s.commits bs.length ≤ s.cap) (hf : s.windowFits) : ∃ t, writeAll bs s = .ok t := by
  induction bs generalizing s with
  | nil => exact ⟨s, rfl⟩
  | cons b bs ih =>
    have hb : ∃ r, writeBit b s = .ok r := by
      by_cases h7 : s.regUsed = 7
      · refine ⟨_, writeBit_commit b h7 ?_⟩
        have : 1 ≤ s.commits (bs.length + 1) := by simp [State.commits, h7]; omega
        simp only [List.length_cons] at h
        unfold State.windowFits at hf
        omega
      · exact ⟨_, writeBit_pending b h7⟩
    obtain ⟨r, hr⟩ := hb
    have f := writeBit_frame hr
    have hc := commits_succ (k := bs.length) hr
    obtain ⟨t, ht⟩ := ih (s := r) (by
        have : r.cap = s.cap := by rw [f.same]
        rw [this]
        exact le_trans hc h)
      (by
        have h1 : r.base = s.base := by rw [f.same]
        have h2 : r.cap = s.cap := by rw [f.same]
        have h3 : r.cfg = s.cfg := by rw [f.same]
        unfold State.windowFits at hf ⊢
        rw [h1, h2, h3]
        exact hf)
    exact ⟨t, by rw [writeAll, hr]; exact ht⟩

/-! ### What writing appends, from a write cursor -/

/-- The write cursor is a matter of REG and REG_USED alone. -/
theorem State.WriteCursor.of_eq (h : s.WriteCursor) (hr : t.reg = s.reg) (hu : t.regUsed = s.regUsed) : t.WriteCursor := by
  refine ⟨by rw [hu]; exact h.few, ?_⟩
  unfold State.restZero
  rw [hr, hu]
  exact h.rest

/-- Writing bits from a write cursor (R79): the stream grows by exactly these bits. -/
structure Appended (s t : State) (bs : List Bool) : Prop where
  frame : WroteAtMost s t bs.length
  written : t.written = s.written ++ bs
  count : 8 * t.bytesUsed + t.regUsed.toNat = 8 * s.bytesUsed + s.regUsed.toNat + bs.length
  cursor : t.WriteCursor

theorem writeBit_appended {b : Bool} (hc : s.WriteCursor) (h : writeBit b s = .ok t) : Appended s t [b] := by
  have f := writeBit_frame h
  have hu : s.regUsed.toNat ≤ 7 := hc.few
  have hnew : s.reg.getLsbD (7 - s.regUsed.toNat) = false := hc.rest _ (by omega)
  by_cases h7 : s.regUsed = 7
  · have h7n : s.regUsed.toNat = 7 := by rw [h7]; rfl
    by_cases ha : s.base + s.bytesUsed < 2 ^ s.cfg.aw
    · rw [writeBit_commit b h7 ha] at h
      cases h
      refine ⟨f, ?_, by simp [h7]; omega, ⟨by simp, fun i _ => by simp⟩⟩
      have hz : (0 : BitVec 4).toNat = 0 := rfl
      simp only [State.written, hz, Nat.add_zero, h7n]
      rw [show 8 * (s.bytesUsed + 1) = (8 * s.bytesUsed + 7) + 1 by ring, List.range_succ, List.map_append]
      congr 1
      · refine List.map_congr_left fun k hk => ?_
        have hk : k < 8 * s.bytesUsed + 7 := List.mem_range.1 hk
        by_cases hlow : k < 8 * s.bytesUsed
        · simp only [State.writtenBit, State.windowBit, streamBit, hlow, if_true,
            if_pos (show k < 8 * (s.bytesUsed + 1) by omega)]
          rw [Memory.read_write_other _ _ _ _ (by omega)]
        · simp only [State.writtenBit, State.windowBit, streamBit, hlow, if_false,
            if_pos (show k < 8 * (s.bytesUsed + 1) by omega)]
          rw [show k / 8 = s.bytesUsed by omega, Memory.read_write_same, placed_bit _ _ _ _ (by omega),
            show k % 8 = k - 8 * s.bytesUsed by omega]
          simp [show ¬ (7 - (k - 8 * s.bytesUsed) = 7 - s.regUsed.toNat) by omega]
      · simp only [List.map_cons, List.map_nil, State.writtenBit, State.windowBit, streamBit,
          if_pos (show 8 * s.bytesUsed + 7 < 8 * (s.bytesUsed + 1) by omega)]
        rw [show (8 * s.bytesUsed + 7) / 8 = s.bytesUsed by omega, Memory.read_write_same,
          placed_bit _ _ _ _ (by omega), show (8 * s.bytesUsed + 7) % 8 = 7 by omega]
        rw [h7n] at hnew
        rw [hnew]
        simp [h7n]
    · rw [writeBit_error b h7 ha] at h
      cases h
  · have hlt : s.regUsed.toNat < 7 := by
      have : s.regUsed.toNat ≠ 7 := fun hn => h7 (by bv_omega)
      omega
    have hs : (s.regUsed + 1).toNat = s.regUsed.toNat + 1 := by bv_omega
    rw [writeBit_pending b h7] at h
    cases h
    refine ⟨f, ?_, by simp only [hs, List.length_singleton]; omega, ⟨by simp only [hs]; omega, fun i hi => ?_⟩⟩
    · simp only [State.written, hs]
      rw [← Nat.add_assoc, List.range_succ, List.map_append]
      congr 1
      · refine List.map_congr_left fun k hk => ?_
        have hk : k < 8 * s.bytesUsed + s.regUsed.toNat := List.mem_range.1 hk
        by_cases hlow : k < 8 * s.bytesUsed
        · simp only [State.writtenBit, State.windowBit, hlow, if_true]
        · simp only [State.writtenBit, hlow, if_false]
          rw [placed_bit _ _ _ _ (by omega)]
          simp [show ¬ (7 - (k - 8 * s.bytesUsed) = 7 - s.regUsed.toNat) by omega]
      · simp only [List.map_cons, List.map_nil, State.writtenBit,
          if_neg (show ¬ (8 * s.bytesUsed + s.regUsed.toNat < 8 * s.bytesUsed) by omega), Nat.add_sub_cancel_left]
        rw [placed_bit _ _ _ _ (by omega), hnew]
        simp
    · simp only [hs] at hi
      show (s.placed b).getLsbD i = false
      rw [placed_bit _ _ _ _ (by omega), hc.rest i (by omega)]
      simp [show ¬ (i = 7 - s.regUsed.toNat) by omega]

theorem writeAll_appended {bs : List Bool} (hc : s.WriteCursor) (h : writeAll bs s = .ok t) : Appended s t bs := by
  induction bs generalizing s with
  | nil =>
    cases h
    exact ⟨.refl _ _, by simp, by simp, hc⟩
  | cons b bs ih =>
    rw [writeAll] at h
    cases hb : writeBit b s with
    | error e => rw [hb] at h; cases h
    | ok r =>
      rw [hb] at h
      have h1 := writeBit_appended hc hb
      have h2 := ih h1.cursor h
      refine ⟨.trans_bit hb h2.frame, by rw [h2.written, h1.written]; simp, ?_, h2.cursor⟩
      have := h1.count
      have := h2.count
      simp only [List.length_cons, List.length_nil] at *
      omega

/-- From a write cursor, Commits(k) is exactly the number of bytes committed (R72). -/
theorem Appended.commits {bs : List Bool} (h : Appended s t bs) : t.bytesUsed = s.bytesUsed + s.commits bs.length := by
  have := h.count
  have := h.cursor.few
  unfold State.commits
  omega

/-! ### Padding (R76, R77) -/

/-- The padding loop writes the bits up to the byte boundary. -/
theorem padBits_eq (b : Bool) (hc : s.WriteCursor) :
    padBits b 8 s = writeAll (List.replicate (padLength s.regUsed.toNat) b) s := by
  have key : ∀ (f : Nat) (s : State), s.WriteCursor → padLength s.regUsed.toNat ≤ f →
      padBits b f s = writeAll (List.replicate (padLength s.regUsed.toNat) b) s := by
    intro f
    induction f with
    | zero =>
      intro s _ hp
      rw [Nat.le_zero.1 hp]
      rfl
    | succ f ih =>
      intro s hc hp
      have hu := hc.few
      by_cases h0 : s.regUsed = 0
      · simp [padBits, h0, padLength, writeAll]
      · have h0n : s.regUsed.toNat ≠ 0 := fun hn => h0 (by bv_omega)
        have hpl : padLength s.regUsed.toNat = (7 - s.regUsed.toNat) + 1 := by unfold padLength; omega
        rw [padBits, if_neg h0, hpl, List.replicate_succ, writeAll]
        cases hb : writeBit b s with
        | error e => rfl
        | ok r =>
          have h1 := writeBit_appended hc hb
          have hr := h1.count
          have hr7 := h1.cursor.few
          simp only [List.length_singleton] at hr
          have hrp : padLength r.regUsed.toNat = 7 - s.regUsed.toNat := by unfold padLength; omega
          have := ih r h1.cursor (by omega)
          rw [hrp] at this
          exact this
  exact key 8 s hc (by unfold padLength; omega)

/-- The padding loop's frame, from every state: at most the byte at BASE + BYTES_USED is stored. -/
theorem padBits_frame {b : Bool} (f : Nat) (h : padBits b f s = .ok t) :
    t = { s with reg := t.reg, regUsed := t.regUsed, bytesUsed := t.bytesUsed, mem := t.mem } ∧
    (t.bytesUsed = s.bytesUsed ∨ (s.regUsed ≠ 0 ∧ t.bytesUsed = s.bytesUsed + 1)) ∧
    (∀ a, ¬ (s.base + s.bytesUsed ≤ a ∧ a < s.base + t.bytesUsed) → t.mem.read a = s.mem.read a) ∧
    (s.MemoryOk → t.MemoryOk) := by
  induction f generalizing s with
  | zero => cases h; exact ⟨rfl, .inl rfl, fun _ _ => rfl, id⟩
  | succ f ih =>
    rw [padBits] at h
    by_cases h0 : s.regUsed = 0
    · rw [if_pos h0] at h
      cases h
      exact ⟨rfl, .inl rfl, fun _ _ => rfl, id⟩
    · rw [if_neg h0] at h
      cases hb : writeBit b s with
      | error e => rw [hb] at h; cases h
      | ok r =>
        rw [hb] at h
        have fr := writeBit_frame hb
        by_cases h7 : s.regUsed = 7
        · have hr0 : r.regUsed = 0 ∧ r.bytesUsed = s.bytesUsed + 1 := by
            by_cases ha : s.base + s.bytesUsed < 2 ^ s.cfg.aw
            · rw [writeBit_commit b h7 ha] at hb; cases hb; exact ⟨rfl, rfl⟩
            · rw [writeBit_error b h7 ha] at hb; cases hb
          have htr : t = r := by
            cases f with
            | zero => cases h; rfl
            | succ f => simp only [padBits, hr0.1, if_true] at h; cases h; rfl
          subst htr
          exact ⟨fr.same, .inr ⟨h0, hr0.2⟩, fr.outside, fr.memory⟩
        · have hrb : r.bytesUsed = s.bytesUsed ∧ r.mem = s.mem ∧ r.base = s.base := by
            rw [writeBit_pending b h7] at hb; cases hb; exact ⟨rfl, rfl, rfl⟩
          obtain ⟨g1, g2, g3, g4⟩ := ih h
          refine ⟨?_, ?_, fun a ha => ?_, fun hm => g4 (fr.memory hm)⟩
          · rw [g1, fr.same]
          · rcases g2 with g2 | ⟨_, g2⟩
            · exact .inl (by omega)
            · exact .inr ⟨h0, by omega⟩
          · rw [g3 a (by rw [hrb.1, hrb.2.2]; exact ha), hrb.2.1]

end Sys2Proof.Machine
end

