-- ==== Sys2Proof/Laws/Decode.lean ====
section
/-! SUPPORT. Laws.Decode: the fields of a command word as numbers, and which words the decoder rejects (R60, R61). -/

namespace Sys2Proof.Machine

theorem opField_toNat (w : CmdWord) : (opField w).toNat = w.toNat % 16 := by simp [opField]

theorem nField_toNat (w : CmdWord) : (nField w).toNat = w.toNat / 16 % 128 := by
  simp [nField, Nat.shiftRight_eq_div_pow]

theorem rsvField_toNat (w : CmdWord) : (rsvField w).toNat = w.toNat / 4096 := by
  have := w.isLt
  simp [rsvField, Nat.shiftRight_eq_div_pow]
  omega

theorem sField_eq (w : CmdWord) : sField w = decide (w.toNat / 2048 % 2 = 1) := by
  simp [sField, BitVec.getLsbD, Nat.testBit_eq_decide_div_mod_eq]

/-- A command word is its four fields (R54). -/
theorem word_eq_of_fields {w v : CmdWord} (hop : opField w = opField v) (hn : nField w = nField v)
    (hs : sField w = sField v) (hr : rsvField w = rsvField v) : w = v := by
  refine BitVec.eq_of_getLsbD_eq fun i hi => ?_
  by_cases h4 : i < 4
  · have := congrArg (·.getLsbD i) hop
    simpa [opField, h4, hi, BitVec.getLsbD_extractLsb'] using this
  · by_cases h11 : i < 11
    · have := congrArg (·.getLsbD (i - 4)) hn
      simpa [nField, BitVec.getLsbD_extractLsb', show i - 4 < 7 by omega, show 4 + (i - 4) = i by omega] using this
    · by_cases h12 : i = 11
      · subst h12
        exact hs
      · have := congrArg (·.getLsbD (i - 12)) hr
        simpa [rsvField, BitVec.getLsbD_extractLsb', show i - 12 < 20 by omega,
          show 12 + (i - 12) = i by omega] using this

/-- The decoder rejects exactly the words R60 and R61 call illegal. -/
theorem decode_error_iff (w : CmdWord) : (∃ e, decode w = .error e) ↔ illegalWord w := by
  have hop := opField_toNat w
  have hs := sField_eq w
  have hn : nField w ≠ 0 ↔ w.toNat / 16 % 128 ≠ 0 := by
    rw [← nField_toNat]
    constructor <;> intro h h' <;> apply h <;> bv_omega
  have hr : rsvField w ≠ 0 ↔ w.toNat / 4096 ≠ 0 := by
    rw [← rsvField_toNat]
    constructor <;> intro h h' <;> apply h <;> bv_omega
  simp only [illegalWord, decode, hop, hr]
  split
  · next h => simp [h]
  · next h =>
    simp only [not_not] at h
    split
    all_goals first
      | (next hk =>
          simp only [decodePlain, decodeWidth, decodeStuff, hn, hs, hk, h]
          repeat' split
          all_goals simp_all)
      | (refine iff_of_true ⟨_, rfl⟩ ?_
         simp only [imp_false] at *
         omega)

theorem decode_ok_iff (w : CmdWord) : (∃ i, decode w = .ok i) ↔ ¬ illegalWord w := by
  rw [← decode_error_iff]
  cases decode w <;> simp

end Sys2Proof.Machine
end

