-- ==== Sys2Proof/Laws/Reading.lean ====
section
/-! SUPPORT. Laws.Reading: everything ReadBit (R81) and its repetition can do, and the value the bits make (R83, R86). -/

namespace Sys2Proof.Machine

variable {s t u : State}

/-! ### The value of a list of bits -/

/-- The unsigned value of bits, the first most significant. -/
def bitsValue (acc : Nat) (bs : List Bool) : Nat := bs.foldl (fun a b => (a <<< 1) ||| b.toNat) acc

theorem bitsValue_testBit (bs : List Bool) (acc i : Nat) :
    (bitsValue acc bs).testBit i =
      if i < bs.length then bs.getD (bs.length - 1 - i) false else acc.testBit (i - bs.length) := by
  induction bs generalizing acc with
  | nil => simp [bitsValue]
  | cons b bs ih =>
    have hcons : bitsValue acc (b :: bs) = bitsValue ((acc <<< 1) ||| b.toNat) bs := rfl
    rw [hcons, ih]
    simp only [List.length_cons]
    by_cases h1 : i < bs.length
    · rw [if_pos h1, if_pos (by omega), show bs.length + 1 - 1 - i = (bs.length - 1 - i) + 1 by omega]
      simp
    · rw [if_neg h1, Nat.testBit_or, Nat.testBit_shiftLeft]
      by_cases h2 : i < bs.length + 1
      · rw [if_pos h2, show bs.length + 1 - 1 - i = 0 by omega, show i - bs.length = 0 by omega]
        cases b <;> simp
      · rw [if_neg h2, show i - bs.length = (i - (bs.length + 1)) + 1 by omega]
        have hb : b.toNat.testBit (i - (bs.length + 1) + 1) = false := by
          cases b <;> simp [Nat.testBit_succ]
        simp [hb]

theorem bitsValue_lt (bs : List Bool) : bitsValue 0 bs < 2 ^ bs.length := by
  refine Nat.lt_pow_two_of_testBit _ fun i hi => ?_
  rw [bitsValue_testBit, if_neg (by omega)]
  simp

/-- The bits of a field make its value modulo 2^n (R38, R88). -/
theorem bitsValue_fieldBits (v : Data) (n : Nat) : bitsValue 0 (fieldBits v n) = v.toNat % 2 ^ n := by
  refine Nat.eq_of_testBit_eq fun i => ?_
  rw [bitsValue_testBit, Nat.testBit_mod_two_pow, fieldBits_length]
  by_cases h : i < n
  · have : n - 1 - i < n := by omega
    simp [h, fieldBits, this, BitVec.getLsbD, show n - 1 - (n - 1 - i) = i by omega]
  · simp [h]

/-! ### Repetition as a list of bits -/

/-- ReadBit n times, the bits in order. -/
def readAll : Nat → State → Except Fault (List Bool × State)
  | 0, s => .ok ([], s)
  | n + 1, s =>
    match readBit s with
    | .ok (b, t) =>
      match readAll n t with
      | .ok (bs, u) => .ok (b :: bs, u)
      | .error e => .error e
    | .error e => .error e

/-- The accumulator of READ_BITS holds the value of the bits read (R83). -/
theorem readField_eq (n acc : Nat) (s : State) :
    readField n acc s =
      match readAll n s with
      | .ok (bs, t) => .ok (bitsValue acc bs, t)
      | .error e => .error e := by
  induction n generalizing acc s with
  | zero => rfl
  | succ n ih =>
    rw [readField, readAll]
    cases hb : readBit s with
    | error e => rfl
    | ok p =>
      obtain ⟨b, t⟩ := p
      simp only [ih]
      cases readAll n t <;> rfl

/-! ### One ReadBit -/

theorem fetchByte_held (h : s.regUsed ≠ 0) : fetchByte s = .ok s := by simp only [fetchByte, h, if_false]

theorem fetchByte_fetch (h : s.regUsed = 0) (ha : s.base + s.bytesUsed < 2 ^ s.cfg.aw) :
    fetchByte s = .ok { s with
      reg := s.mem.read (s.base + s.bytesUsed), bytesUsed := s.bytesUsed + 1, regUsed := 8 } := by
  simp only [fetchByte, h, if_true, memRead, ha]

theorem readBit_held (h : s.regUsed ≠ 0) :
    readBit s = .ok (s.reg.getLsbD 7, { s with reg := s.reg <<< 1, regUsed := s.regUsed - 1 }) := by
  simp only [readBit, fetchByte_held h]

theorem readBit_fetch (h : s.regUsed = 0) (ha : s.base + s.bytesUsed < 2 ^ s.cfg.aw) :
    readBit s = .ok ((s.mem.read (s.base + s.bytesUsed)).getLsbD 7, { s with
      reg := s.mem.read (s.base + s.bytesUsed) <<< 1, bytesUsed := s.bytesUsed + 1, regUsed := 8 - 1 }) := by
  simp only [readBit, fetchByte_fetch h ha]

/-- Reading changes REG, REG_USED and BYTES_USED alone (R81). -/
structure ReadOnly (s t : State) : Prop where
  same : t = { s with reg := t.reg, regUsed := t.regUsed, bytesUsed := t.bytesUsed }

theorem fetchByte_frame (h : fetchByte s = .ok t) : ReadOnly s t := by
  by_cases h0 : s.regUsed = 0
  · by_cases ha : s.base + s.bytesUsed < 2 ^ s.cfg.aw
    · rw [fetchByte_fetch h0 ha] at h; cases h; exact ⟨rfl⟩
    · simp only [fetchByte, h0, if_true, memRead, ha, if_false] at h; cases h
  · rw [fetchByte_held h0] at h; cases h; exact ⟨rfl⟩

theorem readBit_frame {b : Bool} (h : readBit s = .ok (b, t)) : ReadOnly s t := by
  unfold readBit at h
  cases hf : fetchByte s with
  | error e => rw [hf] at h; cases h
  | ok r =>
    rw [hf] at h
    cases h
    exact ⟨by rw [(fetchByte_frame hf).same]⟩

theorem readAll_frame {n : Nat} {bs : List Bool} (h : readAll n s = .ok (bs, t)) : ReadOnly s t ∧ bs.length = n := by
  induction n generalizing s bs with
  | zero => cases h; exact ⟨⟨rfl⟩, rfl⟩
  | succ n ih =>
    rw [readAll] at h
    cases hb : readBit s with
    | error e => rw [hb] at h; cases h
    | ok p =>
      obtain ⟨b, r⟩ := p
      rw [hb] at h
      cases hr : readAll n r with
      | error e => simp only [hr] at h; cases h
      | ok q =>
        obtain ⟨bs', u⟩ := q
        simp only [hr] at h
        cases h
        obtain ⟨f, hl⟩ := ih hr
        exact ⟨⟨by rw [f.same, (readBit_frame hb).same]⟩, by simp [hl]⟩

/-! ### Reading stays inside the window, from every state -/

/-- The fetches that n ReadBits need lie inside the window. -/
abbrev State.canFetch (s : State) (n : Nat) : Prop :=
  s.regUsed.toNat < n → s.bytesUsed + (n - s.regUsed.toNat + 7) / 8 ≤ s.cap

/-- The overrun check (R82) makes every fetch of the command lie inside the window (R36, R43). -/
theorem canFetch_of_check {n : Nat} (h : 8 * s.bytesUsed - s.regUsed.toNat + n ≤ 8 * s.cap) : s.canFetch n := by
  have := s.regUsed.isLt
  unfold State.canFetch
  omega

theorem readBit_step {n : Nat} (hc : s.canFetch (n + 1)) (hf : s.windowFits) :
    ∃ b t, readBit s = .ok (b, t) ∧ t.canFetch n ∧ t.windowFits := by
  unfold State.canFetch at hc
  unfold State.windowFits at hf
  by_cases h0 : s.regUsed = 0
  · have h0n : s.regUsed.toNat = 0 := by rw [h0]; rfl
    have h8 : ((8 : BitVec 4) - 1).toNat = 7 := rfl
    have ha : s.base + s.bytesUsed < 2 ^ s.cfg.aw := by omega
    refine ⟨_, _, readBit_fetch h0 ha, ?_, hf⟩
    simp only [State.canFetch, h8]
    omega
  · have hs : (s.regUsed - 1).toNat = s.regUsed.toNat - 1 ∧ s.regUsed.toNat ≠ 0 := by
      constructor
      · bv_omega
      · exact fun hn => h0 (by bv_omega)
    refine ⟨_, _, readBit_held h0, ?_, hf⟩
    simp only [State.canFetch, hs.1]
    omega

theorem readAll_answers {n : Nat} (hc : s.canFetch n) (hf : s.windowFits) : ∃ bs t, readAll n s = .ok (bs, t) := by
  induction n generalizing s with
  | zero => exact ⟨_, _, rfl⟩
  | succ n ih =>
    obtain ⟨b, t, hb, ht, hft⟩ := readBit_step hc hf
    obtain ⟨bs, u, hu⟩ := ih ht hft
    exact ⟨b :: bs, u, by simp only [readAll, hb, hu]⟩

/-- Fetches allowed by the overrun check never pass the window's end, from every state (R26). -/
theorem readAll_bound {n : Nat} {bs : List Bool} (hc : s.canFetch n) (hb : s.bytesUsed ≤ s.cap)
    (h : readAll n s = .ok (bs, t)) : t.bytesUsed ≤ t.cap := by
  induction n generalizing s bs with
  | zero => cases h; exact hb
  | succ n ih =>
    rw [readAll] at h
    cases hr : readBit s with
    | error e => rw [hr] at h; cases h
    | ok p =>
      obtain ⟨b, r⟩ := p
      rw [hr] at h
      cases hrr : readAll n r with
      | error e => simp only [hrr] at h; cases h
      | ok q =>
        obtain ⟨bs', u⟩ := q
        simp only [hrr] at h
        cases h
        unfold State.canFetch at hc
        by_cases h0 : s.regUsed = 0
        · have h0n : s.regUsed.toNat = 0 := by rw [h0]; rfl
          have h7 : ((8 : BitVec 4) - 1).toNat = 7 := rfl
          by_cases ha : s.base + s.bytesUsed < 2 ^ s.cfg.aw
          · rw [readBit_fetch h0 ha] at hr
            cases hr
            refine ih ?_ ?_ hrr
            · simp only [State.canFetch, h7]
              omega
            · simp only
              omega
          · simp only [readBit, fetchByte, h0, if_true, memRead, ha, if_false] at hr
            cases hr
        · have hs : (s.regUsed - 1).toNat = s.regUsed.toNat - 1 := by bv_omega
          have h0n : s.regUsed.toNat ≠ 0 := fun hn => h0 (by bv_omega)
          rw [readBit_held h0] at hr
          cases hr
          refine ih (s := { s with reg := s.reg <<< 1, regUsed := s.regUsed - 1 }) ?_ hb hrr
          simp only [State.canFetch, hs]
          omega

/-- What ReadBit returns depends on memory only through the byte it fetches. -/
theorem readBit_mem (m : Memory) (h : s.regUsed = 0 → m.read (s.base + s.bytesUsed) = s.mem.read (s.base + s.bytesUsed)) :
    readBit { s with mem := m } =
      match readBit s with
      | .ok (b, t) => .ok (b, { t with mem := m })
      | .error e => .error e := by
  by_cases h0 : s.regUsed = 0
  · by_cases ha : s.base + s.bytesUsed < 2 ^ s.cfg.aw
    · have h1 := readBit_fetch (s := { s with mem := m }) h0 ha
      simp only [h1, readBit_fetch h0 ha, h h0]
    · simp only [readBit, fetchByte, h0, if_true, memRead, ha, if_false]
  · have h1 := readBit_held (s := { s with mem := m }) h0
    simp only [h1, readBit_held h0]

/-- What reading returns depends on memory only through the window (R36). -/
theorem readAll_mem {n : Nat} (m : Memory) (hc : s.canFetch n) (hf : s.windowFits)
    (hm : ∀ a, s.inWindow a → m.read a = s.mem.read a) :
    readAll n { s with mem := m } =
      match readAll n s with
      | .ok (bs, t) => .ok (bs, { t with mem := m })
      | .error e => .error e := by
  induction n generalizing s with
  | zero => rfl
  | succ n ih =>
    have hb := readBit_mem (s := s) m fun h0 => hm _ (by
      have h0n : s.regUsed.toNat = 0 := by rw [h0]; rfl
      unfold State.canFetch at hc
      constructor <;> omega)
    obtain ⟨b, t, ht, hct, hft⟩ := readBit_step hc hf
    have hrec := ih (s := t) hct hft (by
      have f := readBit_frame ht
      rw [f.same]
      exact hm)
    rw [ht] at hb
    simp only [readAll, hb, ht, hrec]
    cases readAll n t <;> rfl

/-- ReadBit neither sees nor changes DOUT. -/
theorem readBit_dout (s : State) (d : Data) :
    readBit { s with dout := d } =
      match readBit s with
      | .ok (b, t) => .ok (b, { t with dout := d })
      | .error e => .error e := by
  by_cases h0 : s.regUsed = 0
  · by_cases ha : s.base + s.bytesUsed < 2 ^ s.cfg.aw
    · rw [readBit_fetch h0 ha, readBit_fetch (s := { s with dout := d }) h0 ha]
    · simp only [readBit, fetchByte, h0, if_true, memRead, ha, if_false]
  · rw [readBit_held h0, readBit_held (s := { s with dout := d }) h0]

/-- Reading neither sees nor changes DOUT; the command writes it at the end (R83). -/
theorem readAll_dout (n : Nat) (s : State) (d : Data) :
    readAll n { s with dout := d } =
      match readAll n s with
      | .ok (bs, t) => .ok (bs, { t with dout := d })
      | .error e => .error e := by
  induction n generalizing s with
  | zero => rfl
  | succ n ih =>
    rw [readAll, readBit_dout, readAll]
    cases readBit s with
    | error e => rfl
    | ok q =>
      obtain ⟨b, t⟩ := q
      simp only
      rw [ih]
      cases readAll n t <;> rfl

/-! ### What a read cursor returns -/

/-- Consuming k bits from a read cursor at position p (R86): the bits are stream bits p to p + k - 1. -/
structure Consumed (s t : State) (bs : List Bool) : Prop where
  frame : ReadOnly s t
  bits : bs = (List.range bs.length).map fun j => s.windowBit (8 * s.bytesUsed - s.regUsed.toNat + j)
  count : 8 * t.bytesUsed + s.regUsed.toNat = 8 * s.bytesUsed + bs.length + t.regUsed.toNat
  cursor : t.ReadCursor

theorem shifted_bit (r : Byte) (u : Nat) : (r <<< (8 - u)).getLsbD 7 = (decide (0 < u) && r.getLsbD (u - 1)) ∨ 8 < u := by
  by_cases h : 8 < u
  · exact .inr h
  · refine .inl ?_
    simp only [BitVec.getLsbD_shiftLeft]
    by_cases h0 : u = 0
    · simp [h0]
    · rw [show 7 - (8 - u) = u - 1 by omega]
      simp [show 0 < u by omega, show ¬ (7 < 8 - u) by omega]

theorem readBit_consumed {b : Bool} (hc : s.ReadCursor) (h : readBit s = .ok (b, t)) : Consumed s t [b] := by
  have f := readBit_frame h
  have hu := hc.few
  by_cases h0 : s.regUsed = 0
  · have h0n : s.regUsed.toNat = 0 := by rw [h0]; rfl
    have h7 : ((8 : BitVec 4) - 1).toNat = 7 := rfl
    by_cases ha : s.base + s.bytesUsed < 2 ^ s.cfg.aw
    · rw [readBit_fetch h0 ha] at h
      cases h
      refine ⟨f, ?_, by simp only [h0n, h7, List.length_singleton]; omega, ⟨?_, ?_, fun _ => ?_, fun i hi => ?_⟩⟩
      · simp [h0n, State.windowBit, streamBit]
      · simp only [h7]; omega
      · simp only [h7]; omega
      · simp only [h7, ← Nat.add_assoc, Nat.add_sub_cancel]
      · simp only [h7] at hi
        have : i = 0 := by omega
        subst this
        simp
    · simp only [readBit, fetchByte, h0, if_true, memRead, ha, if_false] at h
      cases h
  · have h0n : s.regUsed.toNat ≠ 0 := fun hn => h0 (by bv_omega)
    have hs : (s.regUsed - 1).toNat = s.regUsed.toNat - 1 := by bv_omega
    have hcopy := hc.copy h0
    have hf := hc.fetched
    rw [readBit_held h0] at h
    cases h
    refine ⟨f, ?_, by simp only [hs, List.length_singleton]; omega, ⟨?_, ?_, fun _ => ?_, fun i hi => ?_⟩⟩
    · rcases shifted_bit (s.mem.read (s.base + s.bytesUsed - 1)) s.regUsed.toNat with hb | hb
      · simp only [List.length_singleton, List.range_one, List.map_cons, List.map_nil, Nat.add_zero, State.windowBit,
          streamBit]
        rw [hcopy, hb, show s.base + (8 * s.bytesUsed - s.regUsed.toNat) / 8 = s.base + s.bytesUsed - 1 by omega,
          show 7 - (8 * s.bytesUsed - s.regUsed.toNat) % 8 = s.regUsed.toNat - 1 by omega]
        simp [show 0 < s.regUsed.toNat by omega]
      · omega
    · simp only [hs]; omega
    · simp only [hs]; omega
    · show s.reg <<< 1 = s.mem.read (s.base + s.bytesUsed - 1) <<< (8 - (s.regUsed - 1).toNat)
      rw [hcopy, hs, ← BitVec.shiftLeft_add]
      congr 1
      omega
    · simp only [hs] at hi
      show (s.reg <<< 1).getLsbD i = false
      rw [BitVec.getLsbD_shiftLeft]
      by_cases hi0 : i = 0
      · simp [hi0]
      · rw [hc.rest (i - 1) (by omega)]
        simp

theorem windowBit_congr (h : t.mem = s.mem) (hb : t.base = s.base) (k : Nat) : t.windowBit k = s.windowBit k := by
  simp only [State.windowBit, h, hb]

theorem readAll_consumed {n : Nat} {bs : List Bool} (hc : s.ReadCursor) (h : readAll n s = .ok (bs, t)) :
    Consumed s t bs := by
  induction n generalizing s bs with
  | zero => cases h; exact ⟨⟨rfl⟩, rfl, by simp, hc⟩
  | succ n ih =>
    rw [readAll] at h
    cases hb : readBit s with
    | error e => rw [hb] at h; cases h
    | ok p =>
      obtain ⟨b, r⟩ := p
      rw [hb] at h
      cases hr : readAll n r with
      | error e => simp only [hr] at h; cases h
      | ok q =>
        obtain ⟨bs', u⟩ := q
        simp only [hr] at h
        cases h
        have h1 := readBit_consumed hc hb
        have h2 := ih h1.cursor hr
        have c1 := h1.count
        have c2 := h2.count
        have hf := hc.fetched
        have hfr := h1.cursor.fetched
        have hmem : r.mem = s.mem := by rw [h1.frame.same]
        have hbase : r.base = s.base := by rw [h1.frame.same]
        simp only [List.length_singleton] at c1
        refine ⟨⟨by rw [h2.frame.same, h1.frame.same]⟩, ?_, by simp only [List.length_cons]; omega, h2.cursor⟩
        rw [List.length_cons, List.range_succ_eq_map, List.map_cons, List.map_map]
        have hb1 := h1.bits
        simp only [List.length_singleton, List.range_one, List.map_cons, List.map_nil, List.cons.injEq, and_true] at hb1
        refine List.cons_eq_cons.2 ⟨hb1, ?_⟩
        rw [h2.bits]
        simp only [List.length_map, List.length_range]
        refine List.map_congr_left fun j _ => ?_
        rw [windowBit_congr hmem hbase]
        simp only [Function.comp_apply, Nat.succ_eq_add_one]
        congr 1
        omega

/-! ### Reading in parts (R39) -/

/-- The value of two runs of bits, one after the other. -/
theorem bitsValue_append (bs cs : List Bool) :
    bitsValue 0 (bs ++ cs) = bitsValue 0 bs <<< cs.length ||| bitsValue 0 cs := by
  refine Nat.eq_of_testBit_eq fun i => ?_
  simp only [bitsValue_testBit, Nat.testBit_or, Nat.testBit_shiftLeft, List.length_append]
  by_cases h : i < cs.length
  · simp [h, show i < bs.length + cs.length by omega, show ¬ cs.length ≤ i by omega]
    rw [List.getElem?_append_right (by omega)]
    congr 2
    omega
  · by_cases h2 : i < bs.length + cs.length
    · simp [h, h2, show cs.length ≤ i by omega, show i - cs.length < bs.length by omega]
      rw [List.getElem?_append_left (by omega),
        show bs.length + cs.length - 1 - i = bs.length - 1 - (i - cs.length) by omega]
    · simp [h, h2, show cs.length ≤ i by omega, show ¬ i - cs.length < bs.length by omega]

/-- Reading n bits and then m is reading n + m. -/
theorem readAll_append {n m : Nat} {u : State} {bs cs : List Bool} (h : readAll n s = .ok (bs, t))
    (h2 : readAll m t = .ok (cs, u)) : readAll (n + m) s = .ok (bs ++ cs, u) := by
  induction n generalizing s bs with
  | zero => cases h; simpa using h2
  | succ n ih =>
    rw [show n + 1 + m = (n + m) + 1 by omega]
    rw [readAll] at h ⊢
    cases hb : readBit s with
    | error e => rw [hb] at h; cases h
    | ok p =>
      obtain ⟨b, r⟩ := p
      rw [hb] at h
      cases hr : readAll n r with
      | error e => simp only [hr] at h; cases h
      | ok q =>
        obtain ⟨bs', v⟩ := q
        simp only [hr] at h
        cases h
        simp only [ih hr]
        rfl

end Sys2Proof.Machine
end

