-- ==== Sys2Proof/Laws/Exec.lean ====
section
/-! SUPPORT. Laws.Exec: every command as its fault checks and its effect, and what each effect can do. -/

namespace Sys2Proof.Machine

variable {s t : State}

/-- The fault checks of a command, in its order (R99). -/
def checksOf (i : Instr) (s : State) : List (Bool × FaultCode) :=
  match i with
  | .attachW => [(nullBuffer s, .nullBuffer), (windowRange s, .windowRange)]
  | .attachR => [(nullBuffer s, .nullBuffer), (windowRange s, .windowRange)]
  | .writeBits n =>
    [(modeViolation .write s, .modeViolation), (badWidth n, .badWidth),
     (overwideValue (widthOf n) s, .overwideValue), (capacityExceeded (widthOf n) s, .capacityExceeded)]
  | .writeBit =>
    [(modeViolation .write s, .modeViolation), (overwideValue 1 s, .overwideValue),
     (capacityExceeded 1 s, .capacityExceeded)]
  | .stuff _ => [(modeViolation .write s, .modeViolation), (padExceeded s, .capacityExceeded)]
  | .flush => [(modeViolation .write s, .modeViolation), (padExceeded s, .capacityExceeded)]
  | .readBits n => readChecks n s
  | .peekBits n => readChecks n s
  | .readAlign => [(modeViolation .read s, .modeViolation)]

/-- The effect of a command that raises no fault. -/
def effectOf (i : Instr) (s : State) : Result :=
  match i with
  | .attachW => if coversDevice s.cfg s.abase s.alen then .refused .attachOverDevice else .next (openSession .write s)
  | .attachR => if coversDevice s.cfg s.abase s.alen then .refused .attachOverDevice else .next (openSession .read s)
  | .writeBits n => finish (writeField s.din (widthOf n) s)
  | .writeBit => finish (writeBit s.dinBit s)
  | .stuff b => finish (padBits b 8 s)
  | .flush => finish (padBits false 8 s)
  | .readBits n => keepRead (readField (widthOf n) 0 s)
  | .peekBits n => restoreRead s (readField (widthOf n) 0 s)
  | .readAlign => .next { s with reg := 0, regUsed := 0 }

theorem exec_eq (i : Instr) (s : State) : exec i s = runChecked (checksOf i s) (effectOf i s) s := by
  cases i <;> rfl

/-- How a command ends: no effect in FAULTED, one fault of its checks, or its effect. -/
theorem exec_cases (i : Instr) (s : State) :
    (s.mode = .faulted ∧ exec i s = .next s) ∨
    (s.mode ≠ .faulted ∧ ∃ c, firstFault (checksOf i s) = some c ∧ exec i s = .next (takeFault c s)) ∨
    (s.mode ≠ .faulted ∧ firstFault (checksOf i s) = none ∧ exec i s = effectOf i s) := by
  rw [exec_eq]
  exact runChecked_cases _ _ _

/-- No command raises the code NONE or, once decoded, ILLEGAL_COMMAND. -/
theorem checksOf_code {i : Instr} {c : FaultCode} (h : firstFault (checksOf i s) = some c) :
    c ≠ .none ∧ c ≠ .illegalCommand := by
  have key : ∀ p ∈ checksOf i s, p.2 ≠ .none ∧ p.2 ≠ .illegalCommand := by
    cases i <;> simp [checksOf, readChecks]
  exact key _ (mem_of_firstFault h)

theorem modeViolation_eq_false {m : Mode} : modeViolation m s = false ↔ s.mode = m := by
  simp [modeViolation]

/-- A command whose checks pass is in the mode it needs (R91). -/
theorem mode_of_checks {i : Instr} {m : Mode} (h : firstFault (checksOf i s) = none) (hm : neededMode i = some m) :
    s.mode = m := by
  have hall := firstFault_none.1 h
  cases i <;> simp only [neededMode, Option.some.injEq, reduceCtorEq] at hm <;> subst hm <;>
    exact modeViolation_eq_false.1 (hall _ (List.mem_cons_self ..))

theorem keepRead_next {r : Except Fault (Nat × State)} :
    keepRead r = .next t ↔ ∃ acc u, r = .ok (acc, u) ∧ t = { u with dout := BitVec.ofNat 64 acc } := by
  cases r with
  | error e => simp [keepRead]
  | ok p => obtain ⟨a, u⟩ := p; simp [keepRead, eq_comm]

theorem restoreRead_next {r : Except Fault (Nat × State)} :
    restoreRead s r = .next t ↔ ∃ acc u, r = .ok (acc, u) ∧
      t = { u with reg := s.reg, regUsed := s.regUsed, bytesUsed := s.bytesUsed, dout := BitVec.ofNat 64 acc } := by
  cases r with
  | error e => simp [restoreRead]
  | ok p => obtain ⟨a, u⟩ := p; simp [restoreRead, eq_comm]

theorem readField_next {n acc v : Nat} (h : readField n acc s = .ok (v, t)) :
    ∃ bs, readAll n s = .ok (bs, t) ∧ v = bitsValue acc bs := by
  rw [readField_eq] at h
  cases hr : readAll n s with
  | error e => rw [hr] at h; cases h
  | ok p =>
    obtain ⟨bs, u⟩ := p
    rw [hr] at h
    cases h
    exact ⟨bs, rfl, rfl⟩

/-- READ_BITS's effect: the bits read in order, and DOUT their value (R83). -/
theorem effect_readBits {n : Width} (h : effectOf (.readBits n) s = .next t) :
    ∃ bs u, readAll n.toNat s = .ok (bs, u) ∧ t = { u with dout := BitVec.ofNat 64 (bitsValue 0 bs) } := by
  obtain ⟨v, u, hr, ht⟩ := keepRead_next.1 h
  obtain ⟨bs, hb, hv⟩ := readField_next hr
  exact ⟨bs, u, hb, hv ▸ ht⟩

/-- PEEK_BITS's effect: the same bits, and only DOUT changed (R84). -/
theorem effect_peekBits {n : Width} (h : effectOf (.peekBits n) s = .next t) :
    ∃ bs u, readAll n.toNat s = .ok (bs, u) ∧ t = { s with dout := BitVec.ofNat 64 (bitsValue 0 bs) } := by
  obtain ⟨v, u, hr, ht⟩ := restoreRead_next.1 h
  obtain ⟨bs, hb, hv⟩ := readField_next hr
  exact ⟨bs, u, hb, by rw [ht, (readAll_frame hb).1.same, hv]⟩

/-- The bits a write command's effect writes. -/
def bitsOf (i : Instr) (s : State) : List Bool :=
  match i with
  | .writeBits n => fieldBits s.din n.toNat
  | .writeBit => [s.dinBit]
  | .stuff b => List.replicate (padLength s.regUsed.toNat) b
  | .flush => List.replicate (padLength s.regUsed.toNat) false
  | .attachW => []
  | .attachR => []
  | .readBits _ => []
  | .peekBits _ => []
  | .readAlign => []

theorem bitsOf_length (i : Instr) (s : State) : (bitsOf i s).length = appendCount i s := by
  cases i <;> simp [bitsOf, appendCount]

/-- From a write cursor every write command is WriteBit of its bits in turn (R71, R79). -/
theorem effect_write {i : Instr} (hi : neededMode i = some .write) (hc : s.WriteCursor) :
    effectOf i s = finish (writeAll (bitsOf i s) s) := by
  cases i <;> simp [neededMode] at hi
  · simp only [effectOf, bitsOf, widthOf, writeField_eq]
  · simp only [effectOf, bitsOf, writeAll_singleton]
  · simp only [effectOf, bitsOf, padBits_eq _ hc]
  · simp only [effectOf, bitsOf, padBits_eq _ hc]

/-- The frame of a write command's effect, from every state. -/
theorem effect_write_frame {i : Instr} (hi : neededMode i = some .write) (h : effectOf i s = .next t) :
    WroteAtMost s t (appendCount i s) := by
  have hpad : ∀ b, padBits b 8 s = .ok t → WroteAtMost s t (padLength s.regUsed.toNat) := fun b hp => by
    obtain ⟨h1, h2, h3, h4⟩ := padBits_frame 8 hp
    refine ⟨h1, by omega, ?_, h3, h4⟩
    rcases h2 with h2 | ⟨h0, h2⟩
    · omega
    · have : s.regUsed.toNat ≠ 0 := fun hn => h0 (by bv_omega)
      have := s.regUsed.isLt
      unfold State.commits padLength
      omega
  cases i <;> simp [neededMode] at hi
  · have := finish_next.1 h
    rw [writeField_eq] at this
    simpa [appendCount, widthOf] using writeAll_frame this
  · exact writeBit_frame (finish_next.1 h)
  · exact hpad _ (finish_next.1 h)
  · exact hpad _ (finish_next.1 h)

/-- No effect leaves the block FAULTED: only fault entry does (R98, R104). -/
theorem effect_mode {i : Instr} (hs : s.mode ≠ .faulted) (h : effectOf i s = .next t) : t.mode ≠ .faulted := by
  have hw : neededMode i = some .write → t.mode ≠ .faulted := fun hi => by
    rw [(effect_write_frame hi h).same]
    exact hs
  cases i with
  | attachW => simp only [effectOf] at h; split at h <;> cases h; simp
  | attachR => simp only [effectOf] at h; split at h <;> cases h; simp
  | writeBits n => exact hw rfl
  | writeBit => exact hw rfl
  | stuff b => exact hw rfl
  | flush => exact hw rfl
  | readBits n =>
    obtain ⟨bs, u, hr, rfl⟩ := effect_readBits h
    rw [(readAll_frame hr).1.same]
    exact hs
  | peekBits n =>
    obtain ⟨bs, u, hr, rfl⟩ := effect_peekBits h
    exact hs
  | readAlign => cases h; exact hs

/-- A command leaves the configuration (R33), the port and the host's moves as they are. -/
theorem exec_env {i : Instr} (h : exec i s = .next t) :
    t.cfg = s.cfg ∧ t.port = s.port ∧ t.hostMoves = s.hostMoves := by
  rcases exec_cases i s with ⟨_, h2⟩ | ⟨_, c, _, h2⟩ | ⟨_, _, h2⟩
  · rw [h2] at h; cases h; exact ⟨rfl, rfl, rfl⟩
  · rw [h2] at h; cases h; exact ⟨rfl, rfl, rfl⟩
  · rw [h2] at h
    have hw : neededMode i = some .write → t.cfg = s.cfg ∧ t.port = s.port ∧ t.hostMoves = s.hostMoves := fun hi => by
      rw [(effect_write_frame hi h).same]
      exact ⟨rfl, rfl, rfl⟩
    cases i with
    | attachW => simp only [effectOf] at h; split at h <;> cases h; exact ⟨rfl, rfl, rfl⟩
    | attachR => simp only [effectOf] at h; split at h <;> cases h; exact ⟨rfl, rfl, rfl⟩
    | writeBits n => exact hw rfl
    | writeBit => exact hw rfl
    | stuff b => exact hw rfl
    | flush => exact hw rfl
    | readBits n =>
      obtain ⟨bs, u, hr, rfl⟩ := effect_readBits h
      rw [(readAll_frame hr).1.same]
      exact ⟨rfl, rfl, rfl⟩
    | peekBits n =>
      obtain ⟨bs, u, hr, rfl⟩ := effect_peekBits h
      exact ⟨rfl, rfl, rfl⟩
    | readAlign => cases h; exact ⟨rfl, rfl, rfl⟩

/-- A command that ends in the FAULTED mode raised the fault its checks name. -/
theorem exec_faulted {i : Instr} (hs : s.mode ≠ .faulted) (h : exec i s = .next t) (ht : t.mode = .faulted) :
    ∃ c, firstFault (checksOf i s) = some c ∧ t = takeFault c s := by
  rcases exec_cases i s with ⟨h1, _⟩ | ⟨_, c, hc, h2⟩ | ⟨_, _, h2⟩
  · exact absurd h1 hs
  · rw [h2] at h
    cases h
    exact ⟨c, hc, rfl⟩
  · exact absurd ht (effect_mode hs (h2 ▸ h))

/-- A command that does not end in the FAULTED mode had its effect. -/
theorem exec_effect {i : Instr} (h : exec i s = .next t) (ht : t.mode ≠ .faulted) :
    s.mode ≠ .faulted ∧ firstFault (checksOf i s) = none ∧ effectOf i s = .next t := by
  rcases exec_cases i s with ⟨h1, h2⟩ | ⟨_, c, _, h2⟩ | ⟨hs, hc, h2⟩
  · rw [h2] at h
    cases h
    exact absurd h1 ht
  · rw [h2] at h
    cases h
    exact absurd rfl ht
  · exact ⟨hs, hc, h2 ▸ h⟩

/-- The capacity check of a write command leaves room for every byte it commits (R72). -/
theorem room_of_checks {i : Instr} (hi : neededMode i = some .write) (h : firstFault (checksOf i s) = none)
    (hu : s.regUsed.toNat ≤ 7) (hk : 0 < appendCount i s) :
    s.bytesUsed + s.commits (appendCount i s) ≤ s.cap := by
  have hall := firstFault_none.1 h
  cases i <;> simp [neededMode] at hi
  · next n =>
    have := hall (capacityExceeded (widthOf n) s, .capacityExceeded) (by simp [checksOf])
    simpa [capacityExceeded, appendCount, widthOf] using this
  · have := hall (capacityExceeded 1 s, .capacityExceeded) (by simp [checksOf])
    simpa [capacityExceeded, appendCount] using this
  all_goals
    have := hall (padExceeded s, .capacityExceeded) (by simp [checksOf])
    simp only [appendCount, padLength] at hk
    simp only [padExceeded, Bool.and_eq_false_iff, bne_eq_false_iff_eq, decide_eq_false_iff_not, not_lt] at this
    rcases this with h0 | h1
    · simp [h0] at hk
    · simp only [State.commits, appendCount, padLength]
      omega

end Sys2Proof.Machine
end

