-- ==== Sys2Proof/Laws/FaultOrder.lean ====
section
/-! SUPPORT. Laws.FaultOrder: the checks of every command are the fault conditions of R91 to R97, in the order of R99. -/

namespace Sys2Proof.Machine

variable {s : State} {i : Instr} {c : FaultCode}

theorem badWidth_iff {n : Width} : badWidth n = true ↔ n.toNat = 0 ∨ 64 < n.toNat := by
  unfold badWidth widthOf
  rw [decide_eq_true_iff]
  omega

theorem nullBuffer_iff : nullBuffer s = true ↔ s.abase = 0 := by simp [nullBuffer]

theorem windowRange_iff :
    windowRange s = true ↔ 2 ^ s.cfg.aw < s.abase + s.alen ∨ s.cfg.maxCap < s.alen := by
  simp [windowRange]

theorem overwideValue_iff {n : Nat} :
    overwideValue n s = true ↔ s.cfg.overwide = .fault ∧ 2 ^ n ≤ s.din.toNat := by
  simp [overwideValue]

theorem capacityExceeded_iff {k : Nat} :
    capacityExceeded k s = true ↔ s.cap < s.bytesUsed + (s.regUsed.toNat + k) / 8 := by
  simp [capacityExceeded, State.commits]

theorem padExceeded_iff : padExceeded s = true ↔ 0 < s.regUsed.toNat ∧ s.cap < s.bytesUsed + 1 := by
  have : s.regUsed ≠ 0 ↔ 0 < s.regUsed.toNat :=
    ⟨fun h => Nat.pos_of_ne_zero fun hn => h (by bv_omega), fun h h0 => by rw [h0] at h; exact absurd h (by decide)⟩
  simp only [padExceeded, Bool.and_eq_true, bne_iff_ne, ne_eq, decide_eq_true_iff, gt_iff_lt]
  rw [← this]

theorem readOverrun_iff {n : Nat} : readOverrun n s = true ↔ 8 * s.cap < s.bitpos + n := by simp [readOverrun]

/-- A check of a command is true exactly when its fault condition holds. -/
theorem condition_of_mem {b : Bool} (h : (b, c) ∈ checksOf i s) : b = true ↔ faultCondition c i s := by
  have key : ∀ p ∈ checksOf i s, (p.1 = true ↔ faultCondition p.2 i s) := by
    cases i <;>
      simp [checksOf, readChecks, faultCondition, neededMode, modeViolation, badWidth_iff, nullBuffer_iff,
        windowRange_iff, overwideValue_iff, capacityExceeded_iff, padExceeded_iff, readOverrun_iff, widthOf]
    omega
  exact key _ h

/-- A fault condition of a command is one of its checks. -/
theorem mem_of_condition (h : faultCondition c i s) : (true, c) ∈ checksOf i s := by
  have hmem : ∃ b, (b, c) ∈ checksOf i s := by
    cases i <;> cases c <;> simp [faultCondition, neededMode] at h <;> simp [checksOf, readChecks]
  obtain ⟨b, hb⟩ := hmem
  rwa [(condition_of_mem hb).2 h] at hb

/-- The checks of a command stand in the order of R99. -/
theorem checksOf_sorted (i : Instr) (s : State) :
    (checksOf i s).Pairwise (fun x y => faultRank x.2 < faultRank y.2) := by
  cases i <;> simp [checksOf, readChecks, faultRank]

/-- The fault a list raises is its earliest condition that holds. -/
theorem firstFault_earliest {checks : List (Bool × FaultCode)}
    (hs : checks.Pairwise (fun x y => faultRank x.2 < faultRank y.2)) (hc : (true, c) ∈ checks)
    (hmin : ∀ d, (true, d) ∈ checks → faultRank c ≤ faultRank d) : firstFault checks = some c := by
  induction checks with
  | nil => cases hc
  | cons p rest ih =>
    obtain ⟨b, d⟩ := p
    rw [List.pairwise_cons] at hs
    cases b with
    | true =>
      rcases List.mem_cons.1 hc with h | h
      · cases h; rfl
      · have h1 := hs.1 _ h
        have h2 := hmin d (by simp)
        exact absurd h1 (not_lt.2 h2)
    | false =>
      rcases List.mem_cons.1 hc with h | h
      · cases h
      · exact ih hs.2 h fun e he => hmin e (List.mem_cons_of_mem _ he)

/-- A command raises the first of its fault conditions that holds (R99). -/
theorem firstFault_checksOf (hc : faultCondition c i s)
    (hmin : ∀ d, faultCondition d i s → faultRank c ≤ faultRank d) : firstFault (checksOf i s) = some c :=
  firstFault_earliest (checksOf_sorted i s) (mem_of_condition hc) fun d hd =>
    hmin d ((condition_of_mem hd).1 rfl)

/-- With no fault condition, no fault. -/
theorem firstFault_checksOf_none (h : ∀ c, ¬ faultCondition c i s) : firstFault (checksOf i s) = none :=
  firstFault_none.2 fun p hp => by
    obtain ⟨b, c⟩ := p
    cases b with
    | false => rfl
    | true => exact absurd ((condition_of_mem hp).1 rfl) (h c)

end Sys2Proof.Machine
end

