-- ==== Sys2Proof/Laws/Moves.lean ====
section
/-! SUPPORT. Laws.Moves: everything a move of the outside world, and so a step, can do. -/

namespace Sys2Proof.Machine

variable {s t : State}

/-- In FAULTED a decoded command has no effect (R100). -/
theorem exec_in_faulted (i : Instr) (h : s.mode = .faulted) : exec i s = .next s := by
  rw [exec_eq]
  exact runChecked_faulted h

/-- In FAULTED an illegal word has no effect (R100). -/
theorem execIllegal_in_faulted (h : s.mode = .faulted) : execIllegal s = .next s := runChecked_faulted h

/-- An illegal word elsewhere (R90). -/
theorem execIllegal_fault (h : s.mode ≠ .faulted) : execIllegal s = .next (takeFault .illegalCommand s) :=
  runChecked_fault h rfl

/-- A command presented: an illegal word, or the decoded command on the port's buses (R62). -/
theorem performCommand_cases (p : Port) (s : State) :
    (illegalWord p.cmd ∧ performMove (.command p) s = execIllegal { s with port := p }) ∨
    (¬ illegalWord p.cmd ∧
      ∃ i, decode p.cmd = .ok i ∧ performMove (.command p) s = exec i { s with port := p }) := by
  cases hd : decode p.cmd with
  | ok i => exact .inr ⟨(decode_ok_iff _).1 ⟨i, hd⟩, i, rfl, by simp [performMove, performCommand, hd]⟩
  | error e => exact .inl ⟨(decode_error_iff _).1 ⟨e, hd⟩, by simp [performMove, performCommand, hd]⟩

theorem performMove_reset (s : State) : performMove .reset s = .next (assertReset s) := rfl

/-- A store that is not refused: outside the active window, inside memory, one byte changed (R48). -/
theorem hostStore_next {a : Nat} {v : Byte} (h : hostStore a v s = .next t) :
    ¬ (s.inSession = true ∧ s.inWindow a) ∧ a < 2 ^ s.cfg.aw ∧ t = { s with mem := s.mem.write a v } := by
  unfold hostStore at h
  split at h
  · cases h
  · next h1 =>
    split at h
    · cases h
    · by_cases ha : a < 2 ^ s.cfg.aw
      · simp only [memWrite, ha, if_true, finish] at h
        cases h
        exact ⟨h1, ha, rfl⟩
      · simp only [memWrite, ha, if_false, finish] at h
        cases h

/-- What a step is: a wait, or the next move with it taken off the list. -/
theorem step_cases (s : State) :
    (s.hostMoves = [] ∧ step s = .next s) ∨
    (∃ m rest, s.hostMoves = m :: rest ∧ step s = performMove m { s with hostMoves := rest }) := by
  cases hm : s.hostMoves with
  | nil => exact .inl ⟨rfl, by simp [step, stepHost, hm]⟩
  | cons m rest => exact .inr ⟨m, rest, rfl, by simp [step, stepHost, hm]⟩

end Sys2Proof.Machine
end

