-- ==== Sys2Proof/Laws/Effects.lean ====
section
/-! SUPPORT. Laws.Effects: what the effects of the commands need to answer, what they leave of MODE and the fault record, and
how they depend on memory. -/

namespace Sys2Proof.Machine

variable {s t : State}

/-- A command word that decodes is its command, on the port's buses (R53). -/
theorem performMove_of_decode {p : Port} {i : Instr} (h : decode p.cmd = .ok i) (s : State) :
    performMove (.command p) s = exec i { s with port := p } := by
  simp [performMove, performCommand, h]

/-- The window is a matter of BASE, CAP, BYTES_USED and the configuration alone. -/
theorem State.WindowOk.of_eq (h : s.WindowOk) (h1 : t.base = s.base) (h2 : t.cap = s.cap) (h3 : t.cfg = s.cfg)
    (h4 : t.bytesUsed ≤ s.cap) : t.WindowOk where
  notNull := by rw [h1]; exact h.notNull
  capLe := by rw [h2, h3]; exact h.capLe
  fits := by unfold State.windowFits; rw [h1, h2, h3]; exact h.fits
  ordinary := by rw [h1, h2, h3]; exact h.ordinary
  used := by rw [h2]; exact h4

/-- The read cursor is a matter of its registers and the byte fetched last. -/
theorem State.ReadCursor.of_eq (h : s.ReadCursor) (h1 : t.reg = s.reg) (h2 : t.regUsed = s.regUsed)
    (h3 : t.bytesUsed = s.bytesUsed)
    (h4 : s.regUsed ≠ 0 → t.mem.read (t.base + t.bytesUsed - 1) = s.mem.read (s.base + s.bytesUsed - 1)) :
    t.ReadCursor where
  few := by rw [h2]; exact h.few
  fetched := by rw [h2, h3]; exact h.fetched
  copy := fun h0 => by rw [h2] at h0; rw [h4 h0, h1, h2]; exact h.copy h0
  rest := by unfold State.restZero; rw [h1, h2]; exact h.rest

/-- What an effect does with MODE: kept, or the session's (R67, R68). -/
theorem effect_mode_cases {i : Instr} (h : effectOf i s = .next t) :
    (t.mode = s.mode ∧ i ≠ .attachW ∧ i ≠ .attachR) ∨ (i = .attachW ∧ t.mode = .write) ∨
    (i = .attachR ∧ t.mode = .read) := by
  have hw : neededMode i = some .write → t.mode = s.mode := fun hi => by rw [(effect_write_frame hi h).same]
  cases i with
  | attachW => simp only [effectOf] at h; split at h <;> cases h; simp
  | attachR => simp only [effectOf] at h; split at h <;> cases h; simp
  | readBits n => obtain ⟨bs, u, hr, rfl⟩ := effect_readBits h; left; rw [(readAll_frame hr).1.same]; simp
  | peekBits n => obtain ⟨bs, u, hr, rfl⟩ := effect_peekBits h; simp
  | readAlign => cases h; simp
  | _ => simp [hw rfl]

/-- No effect writes the fault record (R21). -/
theorem effect_record {i : Instr} (h : effectOf i s = .next t) :
    t.faultCode = s.faultCode ∧ t.faultMode = s.faultMode ∧ t.faultCmd = s.faultCmd := by
  have hw : neededMode i = some .write →
      t.faultCode = s.faultCode ∧ t.faultMode = s.faultMode ∧ t.faultCmd = s.faultCmd := fun hi => by
    rw [(effect_write_frame hi h).same]; simp
  cases i with
  | attachW => simp only [effectOf] at h; split at h <;> cases h; simp
  | attachR => simp only [effectOf] at h; split at h <;> cases h; simp
  | readBits n => obtain ⟨bs, u, hr, rfl⟩ := effect_readBits h; rw [(readAll_frame hr).1.same]; simp
  | peekBits n => obtain ⟨bs, u, hr, rfl⟩ := effect_peekBits h; simp
  | readAlign => cases h; simp
  | _ => simp [hw rfl]

/-- The padding loop in one piece: the pending bits, the free bits set to the stuff bit, stored as one byte (R76). -/
theorem padBits_closed (b : Bool) (h1 : 1 ≤ s.regUsed.toNat) (h2 : s.regUsed.toNat ≤ 7)
    (ha : s.base + s.bytesUsed < 2 ^ s.cfg.aw) :
    padBits b 8 s = .ok { s with
      mem := s.mem.write (s.base + s.bytesUsed)
        (s.reg ||| ((if b then (0xFF : Byte) else 0x00) >>> s.regUsed.toNat)),
      bytesUsed := s.bytesUsed + 1, reg := 0, regUsed := 0 } := by
  have key : ∀ (f : Nat) (s : State), 1 ≤ s.regUsed.toNat → s.regUsed.toNat ≤ 7 → 8 ≤ f + s.regUsed.toNat →
      s.base + s.bytesUsed < 2 ^ s.cfg.aw →
      padBits b f s = .ok { s with
        mem := s.mem.write (s.base + s.bytesUsed)
          (s.reg ||| ((if b then (0xFF : Byte) else 0x00) >>> s.regUsed.toNat)),
        bytesUsed := s.bytesUsed + 1, reg := 0, regUsed := 0 } := by
    intro f
    induction f with
    | zero => intro s _ _ _; omega
    | succ f ih =>
      intro s h1 h2 h3 ha
      rw [padBits, if_neg (by intro h; rw [h] at h1; exact absurd h1 (by decide))]
      by_cases h7 : s.regUsed = 7
      · rw [writeBit_commit _ h7 ha]
        have hp : s.placed b = s.reg ||| ((if b then (0xFF : Byte) else 0x00) >>> s.regUsed.toNat) := by
          simp only [State.placed, h7]
          cases b <;> simp
        rw [hp]
        cases f with
        | zero => rfl
        | succ f => simp [padBits]
      · have hs : (s.regUsed + 1).toNat = s.regUsed.toNat + 1 := by bv_omega
        have h7n : s.regUsed.toNat ≠ 7 := fun h => h7 (by bv_omega)
        rw [writeBit_pending _ h7]
        show padBits b f { s with reg := s.placed b, regUsed := s.regUsed + 1 } = _
        have hh := ih { s with reg := s.placed b, regUsed := s.regUsed + 1 } (by show 1 ≤ (s.regUsed + 1).toNat; omega)
          (by show (s.regUsed + 1).toNat ≤ 7; omega) (by show 8 ≤ f + (s.regUsed + 1).toNat; omega) ha
        rw [hh]
        have hp : s.placed b ||| ((if b then (0xFF : Byte) else 0x00) >>> (s.regUsed + 1).toNat) =
            s.reg ||| ((if b then (0xFF : Byte) else 0x00) >>> s.regUsed.toNat) := by
          simp only [State.placed, hs, BitVec.or_assoc]
          congr 1
          generalize s.regUsed.toNat = u at *
          have : u = 1 ∨ u = 2 ∨ u = 3 ∨ u = 4 ∨ u = 5 ∨ u = 6 := by omega
          rcases this with rfl | rfl | rfl | rfl | rfl | rfl <;> cases b <;> decide
        simp only [hp]
  exact key 8 s h1 h2 (by omega) ha

/-- Writing does the same over any memory: each byte is either stored alike, or left as each memory has it. -/
theorem writeAll_mem (bs : List Bool) (s t : State) (m : Memory) (h : writeAll bs s = .ok t) :
    ∃ m', writeAll bs { s with mem := m } = .ok { t with mem := m' } ∧
      ∀ a, (m'.read a = t.mem.read a ∧ s.base + s.bytesUsed ≤ a ∧ a < s.base + t.bytesUsed) ∨
        (m'.read a = m.read a ∧ t.mem.read a = s.mem.read a) := by
  induction bs generalizing s m with
  | nil => cases h; exact ⟨m, rfl, fun a => .inr ⟨rfl, rfl⟩⟩
  | cons b bs ih =>
    rw [writeAll] at h
    cases hb : writeBit b s with
    | error e => rw [hb] at h; cases h
    | ok r =>
      rw [hb] at h
      have f := writeBit_frame hb
      have fw := writeAll_frame h
      have hstep : ∃ m1, writeBit b { s with mem := m } = .ok { r with mem := m1 } ∧
          ∀ a, (m1.read a = r.mem.read a ∧ s.base + s.bytesUsed ≤ a ∧ a < s.base + r.bytesUsed) ∨
            (m1.read a = m.read a ∧ r.mem.read a = s.mem.read a) := by
        by_cases h7 : s.regUsed = 7
        · by_cases ha : s.base + s.bytesUsed < 2 ^ s.cfg.aw
          · rw [writeBit_commit b h7 ha] at hb; cases hb
            refine ⟨_, writeBit_commit (s := { s with mem := m }) b h7 ha, fun a => ?_⟩
            simp only [Memory.read_write]
            by_cases hae : s.base + s.bytesUsed = a
            · left; simp [hae]; omega
            · right; simp [hae]
          · rw [writeBit_error b h7 ha] at hb; cases hb
        · rw [writeBit_pending b h7] at hb; cases hb
          exact ⟨m, writeBit_pending (s := { s with mem := m }) b h7, fun a => .inr ⟨rfl, rfl⟩⟩
      obtain ⟨m1, hw1, hm1⟩ := hstep
      obtain ⟨m', hw', hm'⟩ := ih r m1 h
      refine ⟨m', by rw [writeAll, hw1]; exact hw', fun a => ?_⟩
      have hrb : r.base = s.base := by rw [f.same]
      have := f.grows; have := fw.grows
      rcases hm' a with ⟨g1, g2, g3⟩ | ⟨g1, g2⟩
      · left; exact ⟨g1, by omega, by omega⟩
      · rcases hm1 a with ⟨k1, k2, k3⟩ | ⟨k1, k2⟩
        · left; exact ⟨by rw [g1, g2, k1], by omega, by omega⟩
        · right; exact ⟨by rw [g1, k1], by rw [g2, k2]⟩

/-- Padding does the same over any memory: each byte is either stored alike, or left as each memory has it. -/
theorem padBits_mem (b : Bool) (f : Nat) (s t : State) (m : Memory) (h : padBits b f s = .ok t) :
    ∃ m', padBits b f { s with mem := m } = .ok { t with mem := m' } ∧
      ∀ a, (m'.read a = t.mem.read a ∧ s.base + s.bytesUsed ≤ a ∧ a < s.base + t.bytesUsed) ∨
        (m'.read a = m.read a ∧ t.mem.read a = s.mem.read a) := by
  induction f generalizing s m with
  | zero => cases h; exact ⟨m, rfl, fun a => .inr ⟨rfl, rfl⟩⟩
  | succ f ih =>
    rw [padBits] at h
    by_cases h0 : s.regUsed = 0
    · rw [if_pos h0] at h; cases h; exact ⟨m, by rw [padBits, if_pos h0], fun a => .inr ⟨rfl, rfl⟩⟩
    · rw [if_neg h0] at h
      cases hb : writeBit b s with
      | error e => rw [hb] at h; cases h
      | ok r =>
        rw [hb] at h
        have fr := writeBit_frame hb
        have h1 : writeAll [b] s = .ok r := by rw [writeAll_singleton]; exact hb
        obtain ⟨m1, hw1, hm1⟩ := writeAll_mem [b] s r m h1
        rw [writeAll_singleton] at hw1
        obtain ⟨m', hw', hm'⟩ := ih r m1 h
        refine ⟨m', by rw [padBits, if_neg (by exact h0), hw1]; exact hw', fun a => ?_⟩
        have hrb : r.base = s.base := by rw [fr.same]
        have := fr.grows
        have hgt : r.bytesUsed ≤ t.bytesUsed := by
          obtain ⟨_, g, _⟩ := padBits_frame f h
          omega
        rcases hm' a with ⟨g1, g2, g3⟩ | ⟨g1, g2⟩
        · left; exact ⟨g1, by omega, by omega⟩
        · rcases hm1 a with ⟨k1, k2, k3⟩ | ⟨k1, k2⟩
          · left; exact ⟨by rw [g1, g2, k1], by omega, by omega⟩
          · right; exact ⟨by rw [g1, k1], by rw [g2, k2]⟩

/-- A write command whose checks pass answers, and stays inside the capacity (R72). -/
theorem effect_write_answers {i : Instr} (hi : neededMode i = some .write) (hf : s.windowFits)
    (hn : firstFault (checksOf i s) = none) :
    (∃ t, effectOf i s = .next t) ∧
    ∀ t, effectOf i s = .next t → t.bytesUsed ≤ s.cap ∨ t.bytesUsed = s.bytesUsed := by
  have hall := firstFault_none.1 hn
  have pad : ∀ b, padExceeded s = false → (∃ t, finish (padBits b 8 s) = .next t) ∧
      ∀ t, finish (padBits b 8 s) = .next t → t.bytesUsed ≤ s.cap ∨ t.bytesUsed = s.bytesUsed := by
    intro b hx
    have hx' : ¬ (padExceeded s = true) := by simp [hx]
    rw [padExceeded_iff] at hx'
    constructor
    · have key : ∀ f (s : State), s.windowFits → (s.regUsed = 0 ∨ s.bytesUsed + 1 ≤ s.cap) →
          ∃ t, padBits b f s = .ok t := by
        intro f
        induction f with
        | zero => intro s _ _; exact ⟨s, rfl⟩
        | succ f ih =>
          intro s hf hc
          by_cases h0 : s.regUsed = 0
          · exact ⟨s, by rw [padBits, if_pos h0]⟩
          · have hc := hc.resolve_left h0
            rw [padBits, if_neg h0]
            by_cases h7 : s.regUsed = 7
            · rw [writeBit_commit b h7 (by unfold State.windowFits at hf; omega)]
              exact ih _ hf (.inl rfl)
            · rw [writeBit_pending b h7]
              exact ih _ hf (.inr hc)
      by_cases h0 : s.regUsed = 0
      · obtain ⟨t, ht⟩ := key 8 s hf (.inl h0); exact ⟨t, by rw [ht]; rfl⟩
      · have h0n : s.regUsed.toNat ≠ 0 := fun hn => h0 (by bv_omega)
        obtain ⟨t, ht⟩ := key 8 s hf (.inr (by omega)); exact ⟨t, by rw [ht]; rfl⟩
    · intro t ht
      obtain ⟨_, g, _⟩ := padBits_frame 8 (finish_next.1 ht)
      rcases g with g | ⟨h0, g⟩
      · exact .inr g
      · have h0n : s.regUsed.toNat ≠ 0 := fun hn => h0 (by bv_omega)
        exact .inl (by omega)
  cases i <;> simp [neededMode] at hi
  · next n =>
    have := hall (capacityExceeded (widthOf n) s, .capacityExceeded) (by simp [checksOf])
    simp [capacityExceeded] at this
    refine ⟨?_, fun t ht => .inl (le_trans (effect_write_frame (i := .writeBits n) rfl ht).bound this)⟩
    obtain ⟨t, ht⟩ := writeAll_answers (bs := fieldBits s.din n.toNat) (s := s)
      (by rw [fieldBits_length]; exact this) hf
    exact ⟨t, by simp only [effectOf, writeField_eq, widthOf, ht]; rfl⟩
  · have := hall (capacityExceeded 1 s, .capacityExceeded) (by simp [checksOf])
    simp [capacityExceeded] at this
    refine ⟨?_, fun t ht => .inl (le_trans (effect_write_frame (i := .writeBit) rfl ht).bound this)⟩
    obtain ⟨t, ht⟩ := writeAll_answers (bs := [s.dinBit]) (s := s) (by exact this) hf
    rw [writeAll_singleton] at ht
    exact ⟨t, by simp only [effectOf, ht]; rfl⟩
  · exact pad _ (hall (padExceeded s, .capacityExceeded) (by simp [checksOf]))
  · exact pad _ (hall (padExceeded s, .capacityExceeded) (by simp [checksOf]))

/-- A read command whose checks pass has its bits inside the window (R82). -/
theorem readChecks_answers {n : Width} (hf : s.windowFits) (hn : firstFault (readChecks n s) = none) :
    s.canFetch n.toNat ∧ ∃ bs u, readAll n.toNat s = .ok (bs, u) := by
  have hall := firstFault_none.1 hn
  have hmode : s.mode = .read := mode_of_checks (i := .readBits n) hn rfl
  have ho := hall (readOverrun (widthOf n) s, .readOverrun) (by simp [readChecks])
  have hbp : s.bitpos = 8 * s.bytesUsed - s.regUsed.toNat := by simp [State.bitpos, State.sessionMode, hmode]
  have hc := canFetch_of_check (s := s) (n := n.toNat) (by rw [← hbp]; simpa [readOverrun, widthOf] using ho)
  exact ⟨hc, readAll_answers hc hf⟩

end Sys2Proof.Machine
end

