-- ==== Sys2Proof/Laws/PerInstr.lean ====
section
/-! SUPPORT. Laws.PerInstr: for each command, every operand: its word decodes to it, and matches its own row of the opcode
map and no other (30_encoding.md R59, R62). -/

namespace Sys2Proof.Laws.RoundTrip

/-- The command's word decodes to the command, and matches exactly the row of its mnemonic. -/
def Statement (i : Instr) : Prop :=
  decode (encode i) = .ok i ∧ (opcodeTable.filter (·.matches (encode i))).map OpcodeRow.mnemonic = [i.mnemonic]

theorem attachW : Statement .attachW := by unfold Statement; decide
theorem attachR : Statement .attachR := by unfold Statement; decide
theorem writeBits (n : Width) : Statement (.writeBits n) := by revert n; unfold Statement; decide
theorem writeBit : Statement .writeBit := by unfold Statement; decide
theorem stuff (s : Bool) : Statement (.stuff s) := by revert s; unfold Statement; decide
theorem flush : Statement .flush := by unfold Statement; decide
theorem readBits (n : Width) : Statement (.readBits n) := by revert n; unfold Statement; decide
theorem peekBits (n : Width) : Statement (.peekBits n) := by revert n; unfold Statement; decide
theorem readAlign : Statement .readAlign := by unfold Statement; decide

end Sys2Proof.Laws.RoundTrip
end

