-- ==== Sys2Proof/Laws/Ports.lean ====
section
/-! SUPPORT. Laws.Ports: the primitives do not see the command port; only operand fetch, the fault checks and fault entry do
(R55, R98). -/

namespace Sys2Proof.Machine

/-- WriteBit does not see the port. -/
theorem writeBit_port (b : Bool) (s : State) (p : Port) :
    writeBit b { s with port := p } = (writeBit b s).map (fun t => { t with port := p }) := by
  by_cases h7 : s.regUsed = 7
  · by_cases ha : s.base + s.bytesUsed < 2 ^ s.cfg.aw
    · rw [writeBit_commit b h7 ha, writeBit_commit (s := {s with port := p}) b h7 ha]; rfl
    · rw [writeBit_error b h7 ha, writeBit_error (s := {s with port := p}) b h7 ha]; rfl
  · rw [writeBit_pending b h7, writeBit_pending (s := {s with port := p}) b h7]; rfl

/-- Writing does not see the port. -/
theorem writeAll_port (bs : List Bool) (s : State) (p : Port) :
    writeAll bs { s with port := p } = (writeAll bs s).map (fun t => { t with port := p }) := by
  induction bs generalizing s with
  | nil => rfl
  | cons b bs ih =>
    simp only [writeAll, writeBit_port]
    cases writeBit b s with
    | error e => rfl
    | ok t => exact ih t

/-- Padding does not see the port. -/
theorem padBits_port (b : Bool) (f : Nat) (s : State) (p : Port) :
    padBits b f { s with port := p } = (padBits b f s).map (fun t => { t with port := p }) := by
  induction f generalizing s with
  | zero => rfl
  | succ f ih =>
    simp only [padBits, writeBit_port]
    split
    · rfl
    · cases writeBit b s with
      | error e => rfl
      | ok t => exact ih t

/-- ReadBit does not see the port. -/
theorem readBit_port (s : State) (p : Port) :
    readBit { s with port := p } = (readBit s).map (fun q => (q.1, { q.2 with port := p })) := by
  by_cases h0 : s.regUsed = 0
  · by_cases ha : s.base + s.bytesUsed < 2 ^ s.cfg.aw
    · rw [readBit_fetch h0 ha, readBit_fetch (s := {s with port := p}) h0 ha]; rfl
    · simp only [readBit, fetchByte, h0, if_true, memRead, ha, if_false]; rfl
  · rw [readBit_held h0, readBit_held (s := {s with port := p}) h0]; rfl

/-- Reading does not see the port. -/
theorem readField_port (n acc : Nat) (s : State) (p : Port) :
    readField n acc { s with port := p } = (readField n acc s).map (fun q => (q.1, { q.2 with port := p })) := by
  induction n generalizing acc s with
  | zero => rfl
  | succ n ih =>
    simp only [readField, readBit_port]
    cases readBit s with
    | error e => rfl
    | ok t => exact ih _ _

/-- A command on another port with the same word does the same, if it finds the same faults and its effect does the same
(R55). -/
theorem exec_port (i : Instr) (s : State) (p : Port) (hcmd : p.cmd = s.port.cmd)
    (hchk : firstFault (checksOf i { s with port := p }) = firstFault (checksOf i s))
    (heff : firstFault (checksOf i s) = none → ∀ t, effectOf i s = .next t →
      effectOf i { s with port := p } = .next { t with port := p })
    (t : State) (h : exec i s = .next t) :
    exec i { s with port := p } = .next { t with port := p } := by
  rw [exec_eq] at *
  rcases runChecked_cases (checksOf i s) (effectOf i s) s with ⟨h1, h2⟩ | ⟨h1, c, h3, h2⟩ | ⟨h1, h3, h2⟩
  · rw [h2] at h; cases h; exact runChecked_faulted h1
  · rw [h2] at h; cases h
    rw [runChecked_fault (s := {s with port := p}) h1 (by rw [hchk, h3])]
    simp [takeFault, hcmd]
  · rw [h2] at h
    rw [runChecked_effect (s := {s with port := p}) h1 (by rw [hchk, h3])]
    exact heff h3 t h

end Sys2Proof.Machine
end

