-- ==== Sys2Proof/Tests/Slice0.lean ====
section
/-! SUPPORT. Tests: words written out from 30_encoding.md, single steps with the expected values of 95_test_vectors.md, and for
every statement with hypotheses a state that meets them. -/

namespace Sys2Proof.Tests

open Sys2Proof Sys2Proof.Machine

/-! ### Well-formed commands (R64) -/

theorem test_writeBits_zero_refused : (Instr.writeBits 0).wellFormed = false := by decide
theorem test_writeBits_65_refused : (Instr.writeBits 65).wellFormed = false := by decide
theorem test_readBits_zero_refused : (Instr.readBits 0).wellFormed = false := by decide
theorem test_readBits_127_refused : (Instr.readBits 127).wellFormed = false := by decide
theorem test_peekBits_zero_refused : (Instr.peekBits 0).wellFormed = false := by decide
theorem test_peekBits_65_refused : (Instr.peekBits 65).wellFormed = false := by decide
theorem test_widths_accepted :
    (Instr.writeBits 1).wellFormed = true ∧ (Instr.readBits 64).wellFormed = true ∧
    (Instr.peekBits 33).wellFormed = true ∧ (Instr.stuff true).wellFormed = true := by decide

/-! ### Words, bit by bit: RSV, S, N, OP (R54, R59) -/

theorem test_word_attachW : decode 0b00000000000000000000_0_0000000_0001 = .ok .attachW := by decide
theorem test_word_attachR : decode 0b00000000000000000000_0_0000000_0010 = .ok .attachR := by decide
theorem test_word_writeBits : decode 0b00000000000000000000_0_0001100_0011 = .ok (.writeBits 12) := by decide
theorem test_word_writeBit : decode 0b00000000000000000000_0_0000000_0100 = .ok .writeBit := by decide
theorem test_word_stuff_one : decode 0b00000000000000000000_1_0000000_0101 = .ok (.stuff true) := by decide
theorem test_word_stuff_zero : decode 0b00000000000000000000_0_0000000_0101 = .ok (.stuff false) := by decide
theorem test_word_flush : decode 0b00000000000000000000_0_0000000_0110 = .ok .flush := by decide
theorem test_word_readBits : decode 0b00000000000000000000_0_1000000_1000 = .ok (.readBits 64) := by decide
theorem test_word_peekBits : decode 0b00000000000000000000_0_0010000_1001 = .ok (.peekBits 16) := by decide
theorem test_word_readAlign : decode 0b00000000000000000000_0_0000000_1010 = .ok .readAlign := by decide

/-- The narrowest and widest N (R56: "Decode accepts every value"). -/
theorem test_word_width_bounds :
    decode 0b00000000000000000000_0_0000000_0011 = .ok (.writeBits 0) ∧
    decode 0b00000000000000000000_0_1111111_1000 = .ok (.readBits 127) := by decide

/-- Vectors S4, S10, S6, S7, S9: illegal words, each by name. -/
theorem test_illegal_words :
    decode 0x00000000 = .error .reservedOpcode ∧ decode 0x0000000F = .error .reservedOpcode ∧
    decode 0x00000007 = .error .reservedOpcode ∧ decode 0x0000000B = .error .reservedOpcode ∧
    decode 0x00000016 = .error .strayWidth ∧ decode 0x00000015 = .error .strayWidth ∧
    decode 0x00000883 = .error .strayStuff ∧ decode 0x00000801 = .error .strayStuff ∧
    decode 0x00001003 = .error .reservedBits ∧ decode 0x80000001 = .error .reservedBits := by decide

/-- The encoder writes the words of program P1 and vector W12 (R59). -/
theorem test_encode :
    encode (.writeBits 6) = 0x00000063 ∧ encode (.writeBits 65) = 0x00000413 ∧ encode (.stuff true) = 0x00000805 ∧
    encode (.peekBits 9) = 0x00000099 := by decide

theorem test_table_word : decodeTableWord 32 0x00000208 = some (.readBits 32) := by decide

/-! ### The assembler (R64, R65) -/

theorem test_assemble_bounds :
    assemble (.writeBits 64 5) = some ⟨0x00000403, 5, 0, 0⟩ ∧ assemble (.writeBits 1 1) = some ⟨0x00000013, 1, 0, 0⟩ ∧
    assemble (.writeBits 0 0) = none ∧ assemble (.readBits 65) = none ∧ assemble (.peekBits 0) = none ∧
    assemble (.writeBit 2) = none ∧ assemble (.stuff 2) = none := by decide

theorem test_pseudo_commands :
    assemble (PseudoLine.writeU16 0xFFFF).expand = some ⟨0x00000103, 0xFFFF, 0, 0⟩ ∧
    assemble PseudoLine.readByte.expand = some ⟨0x00000088, 0, 0, 0⟩ ∧
    assemble PseudoLine.alignOnes.expand = some ⟨0x00000805, 0, 0, 0⟩ ∧
    assemble PseudoLine.alignZero.expand = some ⟨0x00000006, 0, 0, 0⟩ ∧
    assemble (PseudoLine.skipBits 0).expand = none := by decide

/-! ### Single steps -/

/-- The next state has the property. -/
def after (o : Result) (p : State → Bool) : Bool :=
  match o with
  | .next t => p t
  | .fault _ => false
  | .refused _ => false

/-- What a test looks at: MODE, BYTES_USED, REG, REG_USED. -/
def cursorOf (s : State) : Mode × Nat × Byte × Nat := (s.mode, s.bytesUsed, s.reg, s.regUsed.toNat)

/-- The fault record (R21). -/
def recordOf (s : State) : FaultCode × Mode × CmdWord := (s.faultCode, s.faultMode, s.faultCmd)

/-- Reset, with a command and its buses on the port. -/
def idle (p : Port) : State := { State.reset with port := p }

/-- A write session over 0x100, with `u` bits pending in `r` and `used` bytes committed. -/
def writing (cap used : Nat) (r : Byte) (u : BitVec 4) (p : Port) : State :=
  { State.reset with mode := .write, base := 0x100, cap := cap, bytesUsed := used, reg := r, regUsed := u, port := p }

/-- A read session over 0x200, whose bytes are AB CD EF 01 (section 2.3 of the vectors). -/
def reading (cap used : Nat) (r : Byte) (u : BitVec 4) (p : Port) : State :=
  { State.reset with
    mode := .read, base := 0x200, cap := cap, bytesUsed := used, reg := r, regUsed := u, port := p,
    mem := [(0x200, 0xAB), (0x201, 0xCD), (0x202, 0xEF), (0x203, 0x01)] }

/-- The fault policy of R8. -/
def strict (s : State) : State := { s with cfg := { s.cfg with overwide := .fault } }

/-- Vector A1. -/
theorem test_attachW : after (exec .attachW (idle ⟨1, 0, 0x100, 4⟩)) (fun t =>
    t.base == 0x100 && t.cap == 4 && cursorOf t == (.write, 0, 0, 0)) = true := by decide

/-- Vectors S2 and S2b: a window that wraps, and one that ends exactly at 2^32. -/
theorem test_attachW_top :
    after (exec .attachW (idle ⟨1, 0, 0xFFFFFFFE, 4⟩)) (fun t => recordOf t == (.windowRange, .idle, 1)) = true ∧
    after (exec .attachW (idle ⟨1, 0, 0xFFFFFFFC, 4⟩)) (fun t => t.base == 0xFFFFFFFC) = true := by decide

/-- Vector A2. -/
theorem test_attachR : after (exec .attachR (idle ⟨2, 0, 0x200, 4⟩)) (fun t =>
    t.base == 0x200 && t.cap == 4 && cursorOf t == (.read, 0, 0, 0)) = true := by decide

/-- Vector A4, its last command: a null base; the session's registers are kept. -/
theorem test_attachR_null : after (exec .attachR (writing 4 1 0xC0 4 ⟨2, 0, 0, 4⟩)) (fun t =>
    recordOf t == (.nullBuffer, .write, 2) && cursorOf t == (.faulted, 1, 0xC0, 4) && t.base == 0x100) = true := by
  decide

/-- Vector W1. -/
theorem test_writeBits : after (exec (.writeBits 12) (writing 4 0 0 0 ⟨0xC3, 0xABC, 0, 0⟩)) (fun t =>
    cursorOf t == (.write, 1, 0xC0, 4) && t.mem == [(0x100, 0xAB)]) = true := by decide

/-- Vector W9, its last command. -/
theorem test_writeBits_full : after (exec (.writeBits 13) (writing 2 1 0xC0 4 ⟨0xD3, 0x1FFF, 0, 0⟩)) (fun t =>
    recordOf t == (.capacityExceeded, .write, 0xD3) && cursorOf t == (.faulted, 1, 0xC0, 4)) = true := by decide

/-- Vector W5, its last two bits: 1 then 0 complete 0xB2. -/
theorem test_writeBit : after (exec .writeBit (writing 1 0 0xB2 7 ⟨4, 0, 0, 0⟩)) (fun t =>
    cursorOf t == (.write, 1, 0, 0) && t.mem == [(0x100, 0xB2)]) = true := by decide

/-- Vectors W15 and W15f: DIN = 2 under the two policies. -/
theorem test_writeBit_two :
    after (exec .writeBit (writing 1 0 0 0 ⟨4, 2, 0, 0⟩)) (fun t => cursorOf t == (.write, 0, 0, 1)) = true ∧
    after (exec .writeBit (strict (writing 1 0 0 0 ⟨4, 2, 0, 0⟩))) (fun t =>
      recordOf t == (.overwideValue, .write, 4)) = true := by decide

/-- Vector W6, its last command. -/
theorem test_stuff : after (exec (.stuff true) (writing 2 0 0xA0 3 ⟨0x805, 0, 0, 0⟩)) (fun t =>
    cursorOf t == (.write, 1, 0, 0) && t.mem == [(0x100, 0xBF)]) = true := by decide

/-- Vector W7: on a byte boundary, even with CAP = 0. -/
theorem test_stuff_boundary : after (exec (.stuff true) (writing 0 0 0 0 ⟨0x805, 0, 0, 0⟩)) (fun t =>
    cursorOf t == (.write, 0, 0, 0) && t.mem == []) = true := by decide

/-- Vector W2, its last command, with program P6's old byte CD under the padding. -/
theorem test_flush :
    after (exec .flush { writing 4 1 0xC0 4 ⟨6, 0, 0, 0⟩ with mem := [(0x100, 0xAB), (0x101, 0xCD)] }) (fun t =>
      cursorOf t == (.write, 2, 0, 0) && t.mem == [(0x100, 0xAB), (0x101, 0xC0)]) = true := by decide

/-- Vector W10, its last command. -/
theorem test_flush_full : after (exec .flush (writing 1 1 0x80 1 ⟨6, 0, 0, 0⟩)) (fun t =>
    recordOf t == (.capacityExceeded, .write, 6) && cursorOf t == (.faulted, 1, 0x80, 1)) = true := by decide

/-- Vector R1. -/
theorem test_readBits : after (exec (.readBits 12) (reading 4 0 0 0 ⟨0xC8, 0, 0, 0⟩)) (fun t =>
    t.dout == 0xABC && cursorOf t == (.read, 2, 0xD0, 4) && t.bitpos == 12) = true := by decide

/-- Vector R4b, its last command. -/
theorem test_readBits_overrun : after (exec (.readBits 3) (reading 4 4 0x40 2 ⟨0x38, 0, 0, 0⟩)) (fun t =>
    recordOf t == (.readOverrun, .read, 0x38) && cursorOf t == (.faulted, 4, 0x40, 2)) = true := by decide

/-- Vector R2c, its last command. -/
theorem test_peekBits : after (exec (.peekBits 8) (reading 4 1 0xB0 4 ⟨0x89, 0, 0, 0⟩)) (fun t =>
    t.dout == 0xBC && cursorOf t == (.read, 1, 0xB0, 4)) = true := by decide

/-- Vector R6. -/
theorem test_peekBits_overrun : after (exec (.peekBits 9) (reading 1 0 0 0 ⟨0x99, 0, 0, 0⟩)) (fun t =>
    recordOf t == (.readOverrun, .read, 0x99)) = true := by decide

/-- Vector R5b, its last command. -/
theorem test_readAlign : after (exec .readAlign (reading 4 1 0x58 5 ⟨0xA, 0, 0, 0⟩)) (fun t =>
    cursorOf t == (.read, 1, 0, 0) && t.bitpos == 8) = true := by decide

/-- Vector S8: MODE_VIOLATION comes before BAD_WIDTH. -/
theorem test_fault_order : after (performMove (.command ⟨8, 0, 0, 0⟩) State.reset) (fun t =>
    recordOf t == (.modeViolation, .idle, 8)) = true := by decide

/-- Vectors S4 and S11: an illegal word faults in IDLE. -/
theorem test_illegal_command :
    after (performMove (.command ⟨0, 0, 0, 0⟩) State.reset) (fun t => recordOf t == (.illegalCommand, .idle, 0)) = true ∧
    after (performMove (.command ⟨0x887, 0, 0, 0⟩) State.reset) (fun t =>
      recordOf t == (.illegalCommand, .idle, 0x887)) = true := by decide

/-- Vector S12: reset clears a fault. -/
theorem test_reset : after (performMove .reset (takeFault .modeViolation (writing 4 1 0xC0 4 ⟨0x88, 0, 0, 0⟩))) (fun t =>
    recordOf t == (.none, .idle, 0) && cursorOf t == (.idle, 0, 0, 0)) = true := by decide

/-- The first step after reset runs a placed word. -/
theorem test_withFetchWord : after (step (State.reset.withFetchWord 32 0x00000083)) (fun t =>
    recordOf t == (.modeViolation, .idle, 0x83) && t.hostMoves == []) = true := by decide

/-! ### Witnesses: for every statement with hypotheses, states and operands that meet them, each clause at its bounds -/

/-- The port of a command that reads no bus. -/
def noBus : Port := ⟨0, 0, 0, 0⟩

/-- A small memory map: AW = 10, LW = 10, MAX_CAP = 0x3FF, a device at 0x300 .. 0x30F. -/
def withDevice (s : State) : State := { s with cfg := ⟨10, 10, 0x3FF, .mask, [⟨0x300, 16⟩]⟩ }

theorem test_witness_illegalWords :
    State.reset.mode ≠ .faulted ∧ illegalWord 0 ∧ illegalWord 7 ∧ illegalWord 0xB ∧ illegalWord 0xF ∧
    illegalWord 0x1003 ∧ illegalWord 0x16 ∧ illegalWord 0x883 ∧ ¬ illegalWord 0xA ∧ ¬ illegalWord 0x7F8 ∧
    ¬ illegalWord 0x805 := by
  simp [illegalWord, State.reset]

theorem test_witness_step :
    ∃ s : State, s.hostMoves = [.command ⟨0xA, 0, 0, 0⟩] ∧ decode 0xA = .ok .readAlign ∧ step s = .next { s with
      port := ⟨0xA, 0, 0, 0⟩, hostMoves := [], reg := 0, regUsed := 0 } :=
  ⟨{ reading 4 1 0x58 5 noBus with hostMoves := [.command ⟨0xA, 0, 0, 0⟩] }, rfl, by decide, rfl⟩

theorem test_witness_noMoves : State.reset.hostMoves = [] ∧ (State.reset.withFetchWord 32 6).hostMoves ≠ [] := by decide

/-- The first and the last byte of the window are owned, the bytes beside it not; the top of memory is the last byte. -/
theorem test_witness_stores :
    (writing 4 0 0 0 noBus).inSession = true ∧ (writing 4 0 0 0 noBus).inWindow 0x100 ∧
    (writing 4 0 0 0 noBus).inWindow 0x103 ∧ ¬ (writing 4 0 0 0 noBus).inWindow 0xFF ∧
    ¬ (writing 4 0 0 0 noBus).inWindow 0x104 ∧ ¬ (writing 4 0 0 0 noBus).inWindow 0xFFFFFFFF ∧
    coversDevice Config.standard 0x104 1 = false ∧ 0xFFFFFFFF < 2 ^ Config.standard.aw ∧
    State.reset.inSession = false ∧ (takeFault .readOverrun (reading 4 0 0 0 noBus)).inSession = true := by decide

/-- Fault entry by an illegal word and by a command. -/
theorem test_witness_faultEntry :
    (writing 4 0 0 0 noBus).mode ≠ .faulted ∧
    after (performMove (.command ⟨0xF, 0, 0, 0⟩) (writing 4 0 0 0 noBus)) (·.mode == .faulted) = true ∧
    after (performMove (.command ⟨0x88, 0, 0, 0⟩) (writing 4 0 0 0 noBus)) (·.mode == .faulted) = true := by decide

/-- Each fault condition holds somewhere, alone, and in a legal state none does. -/
theorem test_witness_faultConditions :
    faultCondition .modeViolation .flush State.reset ∧
    faultCondition .badWidth (.writeBits 65) (writing 4 0 0 0 noBus) ∧
    faultCondition .nullBuffer .attachW State.reset ∧
    faultCondition .windowRange .attachR (idle ⟨2, 0, 0xFFFFFFFE, 3⟩) ∧
    faultCondition .windowRange .attachR (idle ⟨2, 0, 1, 0x10000⟩) ∧
    faultCondition .overwideValue (.writeBits 4) (strict (writing 4 0 0 0 ⟨0x43, 16, 0, 0⟩)) ∧
    faultCondition .capacityExceeded (.writeBits 8) (writing 0 0 0 0 noBus) ∧
    faultCondition .capacityExceeded (.stuff true) (writing 1 1 0x80 1 noBus) ∧
    faultCondition .readOverrun (.peekBits 33) (reading 4 0 0 0 noBus) :=
  ⟨⟨.write, rfl, by decide⟩, .inr (by decide), rfl, .inl (by decide), .inr (by decide), ⟨rfl, by decide⟩,
    show 0 < 0 + (0 + 8) / 8 by decide, ⟨by decide, by decide⟩, show 8 * 4 < 0 + 33 by decide⟩

/-- The two attaches with the bounds of their windows: a null base, one byte too high, one byte too long, and the
window that ends at the top of memory with the largest capacity. -/
theorem test_witness_attach :
    (idle ⟨1, 0, 0xFFFF0001, 0xFFFF⟩).abase ≠ 0 ∧
    (idle ⟨1, 0, 0xFFFF0001, 0xFFFF⟩).abase + (idle ⟨1, 0, 0xFFFF0001, 0xFFFF⟩).alen = 2 ^ Config.standard.aw ∧
    (idle ⟨1, 0, 0xFFFF0001, 0xFFFF⟩).alen = Config.standard.maxCap ∧
    coversDevice Config.standard 0xFFFF0001 0xFFFF = false ∧
    (idle ⟨1, 0, 0, 4⟩).abase = 0 ∧
    (idle ⟨1, 0, 0xFFFF0002, 0xFFFF⟩).abase + (idle ⟨1, 0, 0xFFFF0002, 0xFFFF⟩).alen > 2 ^ Config.standard.aw ∧
    (idle ⟨1, 0, 1, 0x10000⟩).alen > Config.standard.maxCap ∧
    (reading 4 0 0 0 noBus).mode ≠ .faulted ∧ (writing 4 0 0 0 noBus).mode ≠ .faulted := by decide

/-- A window whose last byte, and one whose first byte, is a device's. -/
theorem test_witness_device :
    (⟨0x300, 16⟩ : Region) ∈ (withDevice State.reset).cfg.devices ∧
    (withDevice (idle ⟨1, 0, 0x2FF, 2⟩)).abase = 0x2FF ∧ (withDevice (idle ⟨1, 0, 0x2FF, 2⟩)).alen = 2 ∧
    (withDevice (idle ⟨1, 0, 0x30F, 1⟩)).abase = 0x30F ∧ 0x30F + 1 ≤ 2 ^ (withDevice State.reset).cfg.aw ∧
    coversDevice (withDevice State.reset).cfg 0x2FF 1 = false ∧
    coversDevice (withDevice State.reset).cfg 0x310 1 = false := by decide

theorem test_witness_attach_next : ∃ t, exec .attachW (idle ⟨1, 0, 0x100, 4⟩) = .next t ∧ t.mode = .write := ⟨_, rfl, rfl⟩

theorem test_witness_attach_fault : ∃ t, exec .attachR (idle ⟨2, 0, 0, 4⟩) = .next t ∧ t.mode = .faulted := ⟨_, rfl, rfl⟩

theorem test_witness_faulted : (takeFault .badWidth State.reset).mode = .faulted := rfl

theorem test_witness_onlyReset :
    ∃ t, performMove .reset (takeFault .badWidth State.reset) = .next t ∧ t.mode ≠ .faulted := ⟨_, rfl, by decide⟩

/-- A store beside the window and an attach, both after a fault. -/
theorem test_witness_stuck :
    ∃ s t : State, s.mode = .faulted ∧ HostMove.reset ∉ s.hostMoves ∧ s.inSession = true ∧ s.inWindow 0x203 ∧
      core.run 2 s = .next t :=
  ⟨{ takeFault .readOverrun (reading 4 0 0 0 noBus) with hostMoves := [.store 0x204 7, .command ⟨1, 0, 0x100, 4⟩] }, _,
    by decide, by decide, by decide, by decide, rfl⟩

/-- A write cursor with u pending bits in r. -/
theorem test_witness_writeCursor : (writing 4 1 0xC0 4 noBus).WriteCursor ∧ (writing 4 1 0xFE 7 noBus).WriteCursor ∧
    (writing 4 0 0 0 noBus).WriteCursor := ⟨⟨by decide, by decide⟩, ⟨by decide, by decide⟩, ⟨by decide, by decide⟩⟩

/-- WRITE_BITS: every clause, the widths at 0, 1, 64 and 65, the value at 2^n - 1 and 2^n, the capacity just met and just
missed. -/
theorem test_witness_writeBits :
    (writing 4 0 0 0 noBus).mode = .write ∧ (writing 4 0 0 0 noBus).windowFits ∧
    legalWidth 1 ∧ legalWidth 64 ∧ ¬ legalWidth 0 ∧ ¬ legalWidth 65 ∧
    (strict (writing 4 0 0 0 ⟨0x43, 16, 0, 0⟩)).cfg.overwide = .fault ∧
    2 ^ (4 : Width).toNat ≤ (strict (writing 4 0 0 0 ⟨0x43, 16, 0, 0⟩)).din.toNat ∧
    (strict (writing 4 0 0 0 ⟨0x43, 15, 0, 0⟩)).din.toNat < 2 ^ (4 : Width).toNat ∧
    (writing 2 1 0xC0 4 noBus).bytesUsed + ((writing 2 1 0xC0 4 noBus).regUsed.toNat + (11 : Width).toNat) / 8 =
      (writing 2 1 0xC0 4 noBus).cap ∧
    (writing 2 1 0xC0 4 noBus).cap <
      (writing 2 1 0xC0 4 noBus).bytesUsed + ((writing 2 1 0xC0 4 noBus).regUsed.toNat + (12 : Width).toNat) / 8 := by
  decide

/-- WRITE_BIT: DIN at 1 and 2, REG_USED at 6 and 7, a full window. -/
theorem test_witness_writeBit :
    (strict (writing 1 0 0 0 ⟨4, 2, 0, 0⟩)).cfg.overwide = .fault ∧ 1 < (strict (writing 1 0 0 0 ⟨4, 2, 0, 0⟩)).din.toNat ∧
    (strict (writing 1 0 0 0 ⟨4, 1, 0, 0⟩)).din.toNat ≤ 1 ∧ (writing 1 1 0xFC 6 noBus).regUsed.toNat < 7 ∧
    (writing 1 1 0xFC 6 noBus).bytesUsed ≤ (writing 1 1 0xFC 6 noBus).cap ∧
    (writing 1 0 0xFE 7 noBus).regUsed.toNat = 7 ∧
    (writing 1 0 0xFE 7 noBus).bytesUsed + 1 ≤ (writing 1 0 0xFE 7 noBus).cap ∧ (writing 1 0 0xFE 7 noBus).windowFits ∧
    (writing 1 1 0xFE 7 noBus).cap <
      (writing 1 1 0xFE 7 noBus).bytesUsed + ((writing 1 1 0xFE 7 noBus).regUsed.toNat + 1) / 8 := by decide

/-- STUFF and FLUSH: REG_USED at 0, 1 and 7, with and without room for a byte. -/
theorem test_witness_padding :
    (writing 0 0 0 0 noBus).regUsed = 0 ∧
    1 ≤ (writing 1 0 0x80 1 noBus).regUsed.toNat ∧ (writing 1 0 0xFE 7 noBus).regUsed.toNat ≤ 7 ∧
    (writing 1 0 0x80 1 noBus).bytesUsed + 1 ≤ (writing 1 0 0x80 1 noBus).cap ∧ (writing 1 0 0x80 1 noBus).windowFits ∧
    (writing 1 1 0x80 1 noBus).regUsed ≠ 0 ∧ (writing 1 1 0x80 1 noBus).cap < (writing 1 1 0x80 1 noBus).bytesUsed + 1 := by
  decide

/-- Two values with the same low four bits under the mask policy (vector W4). -/
theorem test_witness_mask :
    (∃ t, exec (.writeBits 4) (writing 1 0 0 0 ⟨0x43, 0xFF5, 0, 0⟩) = .next t) ∧
    (writing 1 0 0 0 ⟨0x43, 0xFF5, 0, 0⟩).cfg.overwide = .mask ∧
    ∀ j, j < (4 : Width).toNat → (5 : Data).getLsbD j = (writing 1 0 0 0 ⟨0x43, 0xFF5, 0, 0⟩).din.getLsbD j :=
  ⟨⟨_, rfl⟩, rfl, by decide⟩

/-- A write command that answers without a fault, one that faults on capacity, and one that stores a byte. -/
theorem test_witness_writeCommands :
    neededMode .flush = some .write ∧ 0 < appendCount .flush (writing 1 1 0x80 1 noBus) ∧
    (∃ t, exec .flush (writing 1 1 0x80 1 noBus) = .next t ∧ t.mode = .faulted) ∧
    (∃ t, exec .flush (writing 1 0 0x80 1 noBus) = .next t ∧ t.mode = .write) :=
  ⟨rfl, by decide, ⟨_, rfl, rfl⟩, ⟨_, rfl, rfl⟩⟩

/-- A write session of an attach and one WRITE_BIT, and its FLUSH. -/
theorem test_witness_session :
    ∃ s t : State, WriteSession s [true] ∧ exec .flush s = .next t ∧ t.mode = .write :=
  ⟨writing 1 0 0x80 1 ⟨4, 1, 0, 0⟩, _,
    .command _ _ [] ⟨4, 1, 0, 0⟩ .writeBit (.attach (idle ⟨1, 0, 0x100, 1⟩) _ rfl rfl) rfl rfl rfl, rfl, rfl⟩

/-- A read cursor: nothing fetched, a byte half consumed, and the last byte of the window with one bit left. -/
theorem test_witness_readCursor : (reading 4 0 0 0 noBus).ReadCursor ∧ (reading 4 1 0xB0 4 noBus).ReadCursor ∧
    (reading 4 4 0x80 1 noBus).ReadCursor :=
  ⟨⟨by decide, by decide, by decide, by decide⟩, ⟨by decide, by decide, by decide, by decide⟩,
    ⟨by decide, by decide, by decide, by decide⟩⟩

/-- READ_BITS and PEEK_BITS: the last bits of the window, and one bit more. -/
theorem test_witness_reads :
    (reading 4 1 0xB0 4 noBus).mode = .read ∧ (reading 4 1 0xB0 4 noBus).windowFits ∧
    (reading 4 1 0xB0 4 noBus).bitpos + (28 : Width).toNat = 8 * (reading 4 1 0xB0 4 noBus).cap ∧
    8 * (reading 4 1 0xB0 4 noBus).cap < (reading 4 1 0xB0 4 noBus).bitpos + (29 : Width).toNat ∧
    legalWidth 28 ∧ legalWidth 29 := by decide

/-- Two parts of 63 and 1 bits of the widest field, and the parts of the last 28 bits of the window. -/
theorem test_witness_parts :
    legalWidth 63 ∧ legalWidth 1 ∧ legalWidth 64 ∧ (64 : Width).toNat = (63 : Width).toNat + (1 : Width).toNat ∧
    (28 : Width).toNat = (20 : Width).toNat + (8 : Width).toNat ∧
    (reading 4 1 0xB0 4 noBus).bitpos + (28 : Width).toNat ≤ 8 * (reading 4 1 0xB0 4 noBus).cap := by decide

theorem test_witness_peek_next : ∃ u, exec (.peekBits 12) (reading 4 0 0 0 noBus) = .next u := ⟨_, rfl⟩

/-- READ_ALIGN runs, and a read command that faults. -/
theorem test_witness_readCommands :
    neededMode .readAlign = some .read ∧ (∃ t, exec .readAlign (reading 4 1 0x58 5 noBus) = .next t ∧ t.mode = .read) ∧
    (∃ t, exec (.readBits 33) (reading 4 0 0 0 noBus) = .next t ∧ t.mode = .faulted) :=
  ⟨rfl, ⟨_, rfl, rfl⟩, ⟨_, rfl, rfl⟩⟩

/-- A field of four bits of a wider value, written, flushed and attached for reading. -/
theorem test_witness_roundTrip :
    ∃ t u : State,
      runCommands (⟨1, 0, 0x100, 1⟩ :: [StreamItem.field 4 0xFF5].map StreamItem.writePort ++ [portOf .flush]) State.reset
        = .next t ∧ t.mode = .write ∧
      performMove (.command ⟨2, 0, 0x100, 2⟩) t = .next u ∧ u.mode = .read ∧ u.base = t.base ∧ t.cap ≤ u.cap :=
  ⟨_, _, rfl, rfl, rfl, rfl, rfl, by decide⟩

/-- Each kind of move answers: an attach, a command that faults, a store, reset. -/
theorem test_witness_moves :
    after (performMove (.command ⟨1, 0, 0x100, 4⟩) State.reset) (·.mode == .write) = true ∧
    after (performMove (.command ⟨6, 0, 0, 0⟩) State.reset) (·.mode == .faulted) = true ∧
    after (performMove (.store 0x100 7) State.reset) (·.mem == [(0x100, 7)]) = true ∧
    after (performMove .reset State.reset) (·.mode == .idle) = true ∧
    decode 1 = .ok .attachW ∧ decode 2 = .ok .attachR := by decide

/-- The invariant in a read session with half a byte fetched, with a command to come. -/
theorem test_witness_inv :
    ∃ s t : State, s.Inv ∧ step s = .next t ∧ t.mode = .write :=
  ⟨{ reading 4 1 0xB0 4 noBus with hostMoves := [.command ⟨1, 0, 0x100, 4⟩] }, _,
    ⟨by decide, by decide, by decide,
      ⟨⟨by decide, by decide, by decide, by decide, by decide⟩, ⟨by decide, by decide, by decide, by decide⟩⟩⟩, rfl, rfl⟩

theorem test_witness_bytesUsed :
    ∃ s t : State, s.bytesUsed ≤ s.cap ∧ step s = .next t ∧ t.bytesUsed = t.cap :=
  ⟨{ reading 4 0 0 0 noBus with hostMoves := [.command ⟨0x208, 0, 0, 0⟩] }, _, by decide, rfl, rfl⟩

/-- A memory that differs outside the window alone. -/
theorem test_witness_otherMemory :
    (reading 1 0 0 0 noBus).windowFits ∧ Memory.read [(0x200, 0xAB)] 0x200 = (reading 1 0 0 0 noBus).mem.read 0x200 ∧
    Memory.read [(0x200, 0xAB)] 0x201 ≠ (reading 1 0 0 0 noBus).mem.read 0x201 ∧
    (∀ a, (reading 1 0 0 0 noBus).inWindow a → a = 0x200) :=
  ⟨by decide, by decide, by decide, fun a h => by have := h.1; have := h.2; simp only [reading] at *; omega⟩

theorem test_witness_buses :
    (∃ t, exec .flush (writing 1 0 0x80 1 noBus) = .next t) ∧ readsDin .flush = false ∧ readsWindow .flush = false ∧
    (∃ t, exec .attachR (idle ⟨2, 0, 0x200, 4⟩) = .next t) ∧ readsDin .attachR = false ∧
    (∃ t, exec .writeBit (writing 1 0 0 0 ⟨4, 1, 0, 0⟩) = .next t) ∧ readsWindow .writeBit = false :=
  ⟨⟨_, rfl⟩, rfl, rfl, ⟨_, rfl⟩, rfl, ⟨_, rfl⟩, rfl⟩

end Sys2Proof.Tests
end

section
/-! PROOFS. The statements about the registers (10_state.md): every way a move and a step can answer, said once, and from it
the fault record (R21), the bound on BYTES_USED (R26) and the configuration (R33); then reset (R32, R106) and the host's view
of the status (R34). -/

namespace Sys2Proof.Machine

variable {s t : State}

/-! ### Every way a move answers -/

/-- `MoveAnswers s m t`: one of the five ways in which the move `m` can take the block from `s` to `t`. -/
inductive MoveAnswers (s : State) : HostMove → State → Prop where
  /-- In FAULTED a command word changes the port alone (R100). -/
  | ignored (p : Port) (hs : s.mode = .faulted) : MoveAnswers s (.command p) { s with port := p }
  /-- A command, or an illegal word, that raises a fault (R90, R98). -/
  | fault (p : Port) (c : FaultCode) (hs : s.mode ≠ .faulted) (hc : c ≠ .none) :
      MoveAnswers s (.command p) (takeFault c { s with port := p })
  /-- A command whose checks all pass has its effect (R99). -/
  | effect (p : Port) (i : Instr) (t : State) (hs : s.mode ≠ .faulted)
      (hchecks : firstFault (checksOf i { s with port := p }) = none)
      (heffect : effectOf i { s with port := p } = .next t) : MoveAnswers s (.command p) t
  /-- The reset input (R106). -/
  | reset : MoveAnswers s .reset (assertReset s)
  /-- A store by the host or another agent (R48). -/
  | store (a : Nat) (v : Byte) : MoveAnswers s (.store a v) { s with mem := s.mem.write a v }

theorem moveAnswers_of_exec {p : Port} {i : Instr} (h : exec i { s with port := p } = .next t) :
    MoveAnswers s (.command p) t := by
  rcases exec_cases i { s with port := p } with ⟨hs, he⟩ | ⟨hs, c, hc, he⟩ | ⟨hs, hc, he⟩
  · cases he.symm.trans h
    exact .ignored p hs
  · cases he.symm.trans h
    exact .fault p c hs (checksOf_code hc).1
  · exact .effect p i t hs hc (he.symm.trans h)

theorem moveAnswers_of_execIllegal {p : Port} (h : execIllegal { s with port := p } = .next t) :
    MoveAnswers s (.command p) t := by
  by_cases hs : s.mode = .faulted
  · cases (execIllegal_in_faulted (s := { s with port := p }) hs).symm.trans h
    exact .ignored p hs
  · cases (execIllegal_fault (s := { s with port := p }) hs).symm.trans h
    exact .fault p .illegalCommand hs nofun

/-- Every next state of a move is one of the five. -/
theorem moveAnswers_of_performMove {m : HostMove} (h : performMove m s = .next t) : MoveAnswers s m t := by
  cases m with
  | command p =>
    rcases performCommand_cases p s with ⟨_, he⟩ | ⟨_, i, _, he⟩
    · exact moveAnswers_of_execIllegal (he.symm.trans h)
    · exact moveAnswers_of_exec (he.symm.trans h)
  | reset =>
    cases h
    exact .reset
  | store a v =>
    obtain ⟨_, _, rfl⟩ := hostStore_next h
    exact .store a v

/-- A step waits, or answers as the next move does with that move taken off the list. -/
theorem step_next (h : step s = .next t) :
    t = s ∨ ∃ m rest, s.hostMoves = m :: rest ∧ MoveAnswers { s with hostMoves := rest } m t := by
  rcases step_cases s with ⟨_, he⟩ | ⟨m, rest, hm, he⟩
  · cases he.symm.trans h
    exact .inl rfl
  · exact .inr ⟨m, rest, hm, moveAnswers_of_performMove (he.symm.trans h)⟩

/-! ### The fault record (R21) -/

/-- Settles O18: of the five answers only fault entry and reset write the record. -/
theorem faultRecordIsWrittenOnlyByFaultsAndReset : Obligations.FaultRecordIsWrittenOnlyByFaultsAndReset := by
  intro m s t h
  cases moveAnswers_of_performMove h with
  | ignored p hs => exact .inl ⟨rfl, rfl, rfl⟩
  | fault p c hs hc => exact .inr (.inl ⟨p, rfl, hs, rfl, hc, rfl, rfl⟩)
  | effect p i t hs hchecks heffect => exact .inl (effect_record (s := { s with port := p }) heffect)
  | reset => exact .inr (.inr ⟨rfl, rfl, rfl, rfl⟩)
  | store a v => exact .inl ⟨rfl, rfl, rfl⟩

/-! ### The bound on BYTES_USED (R26) -/

/-- The overrun check of a read command keeps its fetches inside the window (R82). -/
theorem canFetch_of_readChecks {n : Width} (h : firstFault (readChecks n s) = none) : s.canFetch n.toNat := by
  have hall := firstFault_none.1 h
  have hr : s.mode = .read := modeViolation_eq_false.1 (hall (_, .modeViolation) (List.mem_cons_self ..))
  have hoverrun : readOverrun n.toNat s = false :=
    hall (readOverrun n.toNat s, .readOverrun) (by simp [readChecks, widthOf])
  refine canFetch_of_check ?_
  simpa [readOverrun, State.bitpos, State.sessionMode, hr] using hoverrun

/-- The capacity check of WRITE_BITS and WRITE_BIT leaves room for the bytes they commit (R72), at every REG_USED. -/
theorem bytesUsed_le_of_capacityCheck {k : Nat} (hw : WroteAtMost s t k)
    (h : capacityExceeded k s = false) : t.bytesUsed ≤ t.cap := by
  have hroom : s.bytesUsed + s.commits k ≤ s.cap := by simpa [capacityExceeded] using h
  have hcap : t.cap = s.cap := by rw [hw.same]
  exact hcap ▸ hw.bound.trans hroom

/-- The capacity check of STUFF and FLUSH leaves room for the pending byte (R96), at every REG_USED. -/
theorem bytesUsed_le_of_padCheck {b : Bool} {fuel : Nat} (hb : s.bytesUsed ≤ s.cap) (h : padBits b fuel s = .ok t)
    (hpad : padExceeded s = false) : t.bytesUsed ≤ t.cap := by
  obtain ⟨hsame, hcount, -, -⟩ := padBits_frame fuel h
  have hcap : t.cap = s.cap := by rw [hsame]
  have hroom : s.regUsed ≠ 0 → s.bytesUsed < s.cap := by simpa [padExceeded] using hpad
  rcases hcount with hkept | ⟨hpending, hone⟩
  · omega
  · have := hroom hpending
    omega

/-- ATTACH_W's effect (R67), where R47 does not refuse it. -/
theorem effect_attachW (h : effectOf .attachW s = .next t) : t = openSession .write s := by
  simp only [effectOf] at h
  split at h <;> cases h
  rfl

/-- ATTACH_R's effect (R68), where R47 does not refuse it. -/
theorem effect_attachR (h : effectOf .attachR s = .next t) : t = openSession .read s := by
  simp only [effectOf] at h
  split at h <;> cases h
  rfl

/-- A command whose checks pass leaves BYTES_USED at most CAP, from every state in which it was so (R26). -/
theorem effect_bytesUsed_le {i : Instr} (hb : s.bytesUsed ≤ s.cap) (hc : firstFault (checksOf i s) = none)
    (h : effectOf i s = .next t) : t.bytesUsed ≤ t.cap := by
  have hall := firstFault_none.1 hc
  cases i with
  | attachW =>
    rw [effect_attachW h]
    exact Nat.zero_le _
  | attachR =>
    rw [effect_attachR h]
    exact Nat.zero_le _
  | writeBits n =>
    have hroom := hall (capacityExceeded n.toNat s, .capacityExceeded) (by simp [checksOf, widthOf])
    exact bytesUsed_le_of_capacityCheck (effect_write_frame rfl h) hroom
  | writeBit =>
    have hroom := hall (capacityExceeded 1 s, .capacityExceeded) (by simp [checksOf])
    exact bytesUsed_le_of_capacityCheck (effect_write_frame rfl h) hroom
  | stuff b =>
    exact bytesUsed_le_of_padCheck hb (finish_next.1 h) (hall (padExceeded s, .capacityExceeded) (by simp [checksOf]))
  | flush =>
    exact bytesUsed_le_of_padCheck hb (finish_next.1 h) (hall (padExceeded s, .capacityExceeded) (by simp [checksOf]))
  | readBits n =>
    obtain ⟨bs, u, hr, rfl⟩ := effect_readBits h
    exact readAll_bound (t := u) (canFetch_of_readChecks hc) hb hr
  | peekBits n =>
    obtain ⟨bs, u, -, rfl⟩ := effect_peekBits h
    exact hb
  | readAlign =>
    cases h
    exact hb

theorem MoveAnswers.bytesUsed_le {m : HostMove} (h : MoveAnswers s m t) (hb : s.bytesUsed ≤ s.cap) :
    t.bytesUsed ≤ t.cap := by
  cases h with
  | ignored p hs => exact hb
  | fault p c hs hc => exact hb
  | effect p i t hs hchecks heffect => exact effect_bytesUsed_le (s := { s with port := p }) hb hchecks heffect
  | reset => exact le_refl 0
  | store a v => exact hb

/-- Settles O44: each check that guards a commit or a fetch leaves room for it. -/
theorem bytesUsedNeverExceedsCapacity : Obligations.BytesUsedNeverExceedsCapacity := by
  intro s t hb h
  rcases step_next h with rfl | ⟨m, rest, -, hm⟩
  · exact hb
  · exact hm.bytesUsed_le hb

/-! ### The configuration (R33) -/

/-- A command's effect leaves the configuration, by the frame of the whole command. -/
theorem effect_cfg {i : Instr} (hs : s.mode ≠ .faulted) (hc : firstFault (checksOf i s) = none)
    (h : effectOf i s = .next t) : t.cfg = s.cfg := by
  have he : exec i s = .next t := by rw [exec_eq, runChecked_effect hs hc, h]
  exact (exec_env he).1

theorem MoveAnswers.cfg_eq {m : HostMove} (h : MoveAnswers s m t) : t.cfg = s.cfg := by
  cases h with
  | ignored p hs => rfl
  | fault p c hs hc => rfl
  | effect p i t hs hchecks heffect => exact effect_cfg (s := { s with port := p }) hs hchecks heffect
  | reset => rfl
  | store a v => rfl

/-- Settles O47: none of the five answers of a move writes the configuration. -/
theorem configurationIsFixed : Obligations.ConfigurationIsFixed := by
  intro s t h
  rcases step_next h with rfl | ⟨m, rest, -, hm⟩
  · rfl
  · exact hm.cfg_eq

/-! ### Reset (R32, R106) and the status the host sees (R34) -/

/-- Settles O8: the reset move is `assertReset`, which writes the ten registers and nothing else. -/
theorem resetSetsEveryRegister : Obligations.ResetSetsEveryRegister :=
  fun s => performMove_reset s

theorem faultO_iff : s.faultO = true ↔ s.mode = .faulted := by simp [State.faultO]

theorem readReg_MODE (s : State) : s.readReg .MODE = s.mode.toBits.toNat := rfl

theorem readReg_FAULT_CODE (s : State) : s.readReg .FAULT_CODE = s.faultCode.toBits.toNat := rfl

/-- Settles O13: `fault_o` is the comparison with FAULTED, and the tables of R14 and R89 agree row by row. -/
theorem hostSeesTheStatus : Obligations.HostSeesTheStatus := by
  refine ⟨fun s => faultO_iff, fun s => ?_, fun c s => ?_⟩
  · rw [readReg_MODE]
    cases s.mode <;> rfl
  · rw [readReg_FAULT_CODE, takeFault_faultCode]
    cases c <;> rfl

end Sys2Proof.Machine
end

section
/-! PROOFS. The statements about the write commands (41_write.md): the fault each raises as one conditional (R99), what its
effect appends (R71, R79), and from these WRITE_BITS (R74), WRITE_BIT (R75), STUFF (R76) and Commits (R72). -/

namespace Sys2Proof.Machine

variable {s t : State} {i : Instr} {n : Width}

/-! ### A command from its checks -/

theorem exec_fault {c : FaultCode} (hs : s.mode ≠ .faulted) (hc : firstFault (checksOf i s) = some c) :
    exec i s = .next (takeFault c s) := by
  rw [exec_eq, runChecked_fault hs hc]

theorem exec_of_checks (hs : s.mode ≠ .faulted) (hc : firstFault (checksOf i s) = none) : exec i s = effectOf i s := by
  rw [exec_eq, runChecked_effect hs hc]

/-- A command raises MODE_VIOLATION, before its other faults, in every mode but the one it needs and FAULTED (R91). -/
theorem exec_outside_mode {m : Mode} (hi : neededMode i = some m) (hs : s.mode ≠ .faulted) (hm : s.mode ≠ m) :
    exec i s = .next (takeFault .modeViolation s) := by
  refine exec_fault hs (firstFault_checksOf ⟨m, hi, hm⟩ fun d hd => ?_)
  cases d with
  | none => exact absurd hd (by simp [faultCondition])
  | illegalCommand => exact absurd hd (by simp [faultCondition])
  | _ => decide

/-- A write command in IDLE or READ (R91). -/
theorem exec_write_outside_mode (hi : neededMode i = some .write) (hm : s.mode = .idle ∨ s.mode = .read) :
    exec i s = .next (takeFault .modeViolation s) := by
  rcases hm with hm | hm <;> exact exec_outside_mode hi (by simp [hm]) (by simp [hm])

theorem not_faulted_of_write (hm : s.mode = .write) : s.mode ≠ .faulted := by simp [hm]

/-! ### The fault of each write command in WRITE, in the order of its checks (R99) -/

theorem firstFault_writeBits (hm : s.mode = .write) : firstFault (checksOf (.writeBits n) s) =
    if ¬ legalWidth n then some .badWidth
    else if s.cfg.overwide = .fault ∧ 2 ^ n.toNat ≤ s.din.toNat then some .overwideValue
    else if s.cap < s.bytesUsed + (s.regUsed.toNat + n.toNat) / 8 then some .capacityExceeded
    else none := by
  have hwidth : badWidth n = true ↔ ¬ legalWidth n := by
    rw [badWidth_iff]
    omega
  simp only [checksOf, firstFault_cons, firstFault_nil, modeViolation_eq_false.2 hm, Bool.false_eq_true, if_false, hwidth,
    overwideValue_iff, capacityExceeded_iff, widthOf]

theorem firstFault_writeBit (hm : s.mode = .write) : firstFault (checksOf .writeBit s) =
    if s.cfg.overwide = .fault ∧ 1 < s.din.toNat then some .overwideValue
    else if s.cap < s.bytesUsed + (s.regUsed.toNat + 1) / 8 then some .capacityExceeded
    else none := by
  simp only [checksOf, firstFault_cons, firstFault_nil, modeViolation_eq_false.2 hm, Bool.false_eq_true, if_false,
    overwideValue_iff, capacityExceeded_iff, pow_one, Nat.succ_le_iff]

theorem firstFault_stuff {b : Bool} (hm : s.mode = .write) : firstFault (checksOf (.stuff b) s) =
    if 0 < s.regUsed.toNat ∧ s.cap < s.bytesUsed + 1 then some .capacityExceeded else none := by
  simp only [checksOf, firstFault_cons, firstFault_nil, modeViolation_eq_false.2 hm, Bool.false_eq_true, if_false,
    padExceeded_iff]

/-- Under the mask policy, or with no bit at or above the width, a value is not overwide (R8, R95). -/
theorem not_overwide {p : OverwidePolicy} {v bound : Nat} (h : p = .mask ∨ v < bound) :
    ¬ (p = .fault ∧ bound ≤ v) := by
  rintro ⟨rfl, hle⟩
  rcases h with h | h
  · cases h
  · omega

/-- The value of WRITE_BIT has width 1 (R95). -/
theorem not_overwide_bit {p : OverwidePolicy} {v : Nat} (h : p = .mask ∨ v ≤ 1) : ¬ (p = .fault ∧ 1 < v) :=
  not_overwide (h.imp_right Nat.lt_succ_of_le)

/-! ### What a write command's effect appends -/

/-- From a write cursor the effect of a write command appends its bits (R71, R79). -/
theorem effect_appended (hi : neededMode i = some .write) (hc : s.WriteCursor) (h : effectOf i s = .next t) :
    Appended s t (bitsOf i s) := by
  rw [effect_write hi hc] at h
  exact writeAll_appended hc (finish_next.1 h)

/-- A write command whose checks pass answers, and appends its bits. -/
theorem exec_write_appends (hi : neededMode i = some .write) (hc : s.WriteCursor) (hf : s.windowFits)
    (hs : s.mode ≠ .faulted) (hn : firstFault (checksOf i s) = none) :
    ∃ t, exec i s = .next t ∧ Appended s t (bitsOf i s) := by
  obtain ⟨t, ht⟩ := (effect_write_answers hi hf hn).1
  exact ⟨t, (exec_of_checks hs hn).trans ht, effect_appended hi hc ht⟩

/-- From a write cursor Commits(k) counts the bytes a write command's effect stores (R72). -/
theorem Appended.bytesUsed_eq (h : Appended s t (bitsOf i s)) :
    t.bytesUsed = s.bytesUsed + (s.regUsed.toNat + appendCount i s) / 8 := by
  rw [h.commits, bitsOf_length, State.commits]

theorem Appended.position_eq (h : Appended s t (bitsOf i s)) :
    8 * t.bytesUsed + t.regUsed.toNat = 8 * s.bytesUsed + s.regUsed.toNat + appendCount i s := by
  rw [h.count, bitsOf_length]

/-- The bits that fill no byte stay pending (R72). -/
theorem Appended.regUsed_eq (h : Appended s t (bitsOf i s)) :
    t.regUsed.toNat = (s.regUsed.toNat + appendCount i s) % 8 := by
  have := h.bytesUsed_eq
  have := h.position_eq
  omega

/-! ### Commits (R72) -/

/-- A write command whose bytes do not fit ends in a fault: its checks leave room for every byte it stores. -/
theorem faulted_of_no_room (hi : neededMode i = some .write) (hc : s.WriteCursor) (h : exec i s = .next t)
    (hroom : s.cap < s.bytesUsed + (s.regUsed.toNat + appendCount i s) / 8) (hk : 0 < appendCount i s) :
    t.mode = .faulted := by
  by_contra ht
  obtain ⟨-, hn, -⟩ := exec_effect h ht
  have := room_of_checks hi hn hc.few hk
  unfold State.commits at this
  omega

/-- Settles O30: without a fault the command appended its bits; with one, fault entry left cursor and memory alone. -/
theorem commitsIsTheNumberOfBytesStored : Obligations.CommitsIsTheNumberOfBytesStored := by
  intro i s t hi hm hc hf h
  refine ⟨fun ht => ?_, fun hroom hk => ?_⟩
  · obtain ⟨-, hn, he⟩ := exec_effect h ht
    have ha := effect_appended hi hc he
    refine ⟨ha.bytesUsed_eq, ha.position_eq, fun hk => ?_⟩
    rw [ha.bytesUsed_eq]
    exact room_of_checks hi hn hc.few hk
  · have ht := faulted_of_no_room hi hc h hroom hk
    obtain ⟨c, -, rfl⟩ := exec_faulted (not_faulted_of_write hm) h ht
    exact ⟨rfl, rfl, rfl, rfl, rfl⟩

/-! ### WRITE_BITS (R74) -/

/-- Settles O24: the faults by `firstFault_writeBits`, the completed write by `exec_write_appends`. -/
theorem writeBitsAppendsTheField : Obligations.WriteBitsAppendsTheField := by
  intro n s
  refine ⟨fun hm => exec_write_outside_mode rfl hm, fun hm hw => ?_, fun hm hw hp hv => ?_, fun hm hw hv hroom => ?_,
    fun hm hw hv hroom hf hc => ?_⟩
  · exact exec_fault (not_faulted_of_write hm) (by rw [firstFault_writeBits hm, if_pos hw])
  · exact exec_fault (not_faulted_of_write hm)
      (by rw [firstFault_writeBits hm, if_neg (not_not_intro hw), if_pos ⟨hp, hv⟩])
  · exact exec_fault (not_faulted_of_write hm)
      (by rw [firstFault_writeBits hm, if_neg (not_not_intro hw), if_neg (not_overwide hv), if_pos hroom])
  · have hn : firstFault (checksOf (.writeBits n) s) = none := by
      rw [firstFault_writeBits hm, if_neg (not_not_intro hw), if_neg (not_overwide hv), if_neg (not_lt.2 hroom)]
    obtain ⟨t, ht, ha⟩ := exec_write_appends rfl hc hf (not_faulted_of_write hm) hn
    exact ⟨t, ht, ha.written, ha.bytesUsed_eq, ha.regUsed_eq, ha.cursor.rest, ha.frame.same, ha.frame.outside⟩

/-! ### WRITE_BIT (R75) -/

/-- WRITE_BIT with its value in width and room for its byte, if it fills one, is the primitive of R71. -/
theorem exec_writeBit (hm : s.mode = .write) (hv : s.cfg.overwide = .mask ∨ s.din.toNat ≤ 1)
    (hroom : s.bytesUsed + (s.regUsed.toNat + 1) / 8 ≤ s.cap) : exec .writeBit s = finish (writeBit s.dinBit s) := by
  refine exec_of_checks (not_faulted_of_write hm) ?_
  rw [firstFault_writeBit hm, if_neg (not_overwide_bit hv), if_neg (not_lt.2 hroom)]

/-- Settles O25: the faults by `firstFault_writeBit`, the two outcomes by `writeBit_pending` and `writeBit_commit`. -/
theorem writeBitAppendsOneBit : Obligations.WriteBitAppendsOneBit := by
  intro s
  refine ⟨fun hm => exec_write_outside_mode rfl hm, fun hm hp hv => ?_, fun hm hv hroom => ?_, fun hm hv h7 hb => ?_,
    fun hm hv h7 hb hf => ?_⟩
  · exact exec_fault (not_faulted_of_write hm) (by rw [firstFault_writeBit hm, if_pos ⟨hp, hv⟩])
  · exact exec_fault (not_faulted_of_write hm) (by
      rw [firstFault_writeBit hm, if_neg (not_overwide_bit hv), if_pos hroom])
  · have hpending : s.regUsed ≠ 7 := fun h => by simp [h] at h7
    rw [exec_writeBit hm hv (by omega), writeBit_pending _ hpending]
    rfl
  · have hfull : s.regUsed = 7 := BitVec.eq_of_toNat_eq h7
    have hin : s.base + s.bytesUsed < 2 ^ s.cfg.aw := by omega
    have hplaced : s.placed s.dinBit = s.reg ||| (BitVec.ofBool (s.din.getLsbD 0)).setWidth 8 := by
      simp [State.placed, State.dinBit, h7]
    rw [exec_writeBit hm hv (by omega), writeBit_commit _ hfull hin, hplaced]
    rfl

/-! ### STUFF (R76) -/

/-- STUFF on a byte boundary, or with room for the pending byte, is the padding loop of R76. -/
theorem exec_stuff {b : Bool} (hm : s.mode = .write) (hroom : s.regUsed = 0 ∨ s.bytesUsed + 1 ≤ s.cap) :
    exec (.stuff b) s = finish (padBits b 8 s) := by
  refine exec_of_checks (not_faulted_of_write hm) ?_
  rw [firstFault_stuff hm, if_neg]
  rintro ⟨hpending, hfull⟩
  rcases hroom with h0 | h1
  · simp [h0] at hpending
  · omega

theorem padBits_boundary (b : Bool) (fuel : Nat) (h : s.regUsed = 0) : padBits b fuel s = .ok s := by
  cases fuel with
  | zero => rfl
  | succ f => rw [padBits, if_pos h]

/-- Settles O26: the fault by `firstFault_stuff`, the stored byte by `padBits_closed`. -/
theorem stuffPadsToTheByteBoundary : Obligations.StuffPadsToTheByteBoundary := by
  intro b s
  refine ⟨fun hm => exec_write_outside_mode rfl hm, fun hm h0 => ?_, fun hm h0 hroom => ?_, fun hm h1 h7 hroom hf => ?_⟩
  · rw [exec_stuff hm (.inl h0), padBits_boundary b 8 h0]
    rfl
  · have hpending : 0 < s.regUsed.toNat := Nat.pos_of_ne_zero fun h => h0 (BitVec.eq_of_toNat_eq h)
    exact exec_fault (not_faulted_of_write hm) (by rw [firstFault_stuff hm, if_pos ⟨hpending, hroom⟩])
  · have hin : s.base + s.bytesUsed < 2 ^ s.cfg.aw := by omega
    rw [exec_stuff hm (.inr hroom), padBits_closed b h1 h7 hin]
    rfl

end Sys2Proof.Machine
end

section
/-! PROOFS. The statement about READ_ALIGN (42_read.md R85): its one check is the mode (R91), its effect empties REG. -/

namespace Sys2Proof.Machine

variable {s : State}

/-- BITPOS of an open read session (R22). -/
theorem bitpos_of_read (hm : s.mode = .read) : s.bitpos = 8 * s.bytesUsed - s.regUsed.toNat := by
  simp [State.bitpos, State.sessionMode, hm]

/-- READ_ALIGN in READ has its effect: MODE is all it checks (R85). -/
theorem exec_readAlign (hm : s.mode = .read) : exec .readAlign s = .next { s with reg := 0, regUsed := 0 } := by
  refine exec_of_checks (by simp [hm]) ?_
  simp only [checksOf, firstFault_cons, firstFault_nil, modeViolation_eq_false.2 hm, Bool.false_eq_true, if_false]

/-- At most seven unconsumed bits end at the byte fetched last, so the next multiple of 8 is the end of that byte (R24). -/
theorem State.ReadCursor.bitpos_round_up (hc : s.ReadCursor) (hm : s.mode = .read) :
    (s.bitpos + 7) / 8 * 8 = 8 * s.bytesUsed := by
  have hfew := hc.few
  have hfetched := hc.fetched
  rw [bitpos_of_read hm]
  omega

/-- Settles O38: the next state by `exec_readAlign`, its BITPOS by `bitpos_round_up`, the violation by `exec_outside_mode`. -/
theorem readAlignDropsTheRestOfTheByte : Obligations.ReadAlignDropsTheRestOfTheByte := by
  intro s
  refine ⟨exec_readAlign, fun hm hc t ht => ?_, fun hm => ?_⟩
  · cases (exec_readAlign hm).symm.trans ht
    have hbitpos : State.bitpos { s with reg := 0, regUsed := 0 } = 8 * s.bytesUsed := bitpos_of_read hm
    exact ⟨hbitpos, hbitpos.trans (hc.bitpos_round_up hm).symm⟩
  · rcases hm with hm | hm <;> exact exec_outside_mode rfl (by simp [hm]) (by simp [hm])

end Sys2Proof.Machine
end

section
/-! PROOFS. The statements about faults (60_exceptions.md): which fault a command raises (R91, R93, R94, R99), what fault
entry records and leaves (R98), and that only reset leaves FAULTED (R100, R101). -/

namespace Sys2Proof.Machine

variable {s t : State} {i : Instr} {p : Port}

/-! ### The FAULTED mode (R100, R101) -/

/-- Settles O14: a decoded command and an illegal word both begin with the test for FAULTED. -/
theorem faultedBlockIgnoresEveryCommand : Obligations.FaultedBlockIgnoresEveryCommand := by
  intro p s hs
  rcases performCommand_cases p s with ⟨-, he⟩ | ⟨-, i, -, he⟩
  · exact he.trans (execIllegal_in_faulted hs)
  · exact he.trans (exec_in_faulted i hs)

/-- Settles O15: of the five answers of a move only reset's has another mode. -/
theorem onlyResetLeavesFaulted : Obligations.OnlyResetLeavesFaulted := by
  intro m s t hs h ht
  cases moveAnswers_of_performMove h with
  | ignored p _ => exact absurd hs ht
  | fault p c hne _ => exact absurd hs hne
  | effect p i t hne _ _ => exact absurd hs hne
  | reset => exact ⟨rfl, rfl, rfl⟩
  | store a v => exact absurd hs ht

/-! ### The faults of an attach (R93, R94) -/

/-- The fault of an attach, null before range (R99). -/
theorem firstFault_attach (hi : i = .attachW ∨ i = .attachR) : firstFault (checksOf i s) =
    if s.abase = 0 then some .nullBuffer
    else if 2 ^ s.cfg.aw < s.abase + s.alen ∨ s.cfg.maxCap < s.alen then some .windowRange
    else none := by
  rcases hi with rfl | rfl <;>
    simp only [checksOf, firstFault_cons, firstFault_nil, nullBuffer_iff, windowRange_iff]

/-- Settles O21 by `firstFault_attach`. -/
theorem attachFaultsOnNullAndRange : Obligations.AttachFaultsOnNullAndRange := by
  intro i s hi hs
  refine ⟨fun h0 => exec_fault hs ?_, fun h0 hrange => exec_fault hs ?_⟩
  · rw [firstFault_attach hi, if_pos h0]
  · rw [firstFault_attach hi, if_neg h0, if_pos hrange]

/-! ### MODE_VIOLATION (R91) -/

/-- A fault that a command raises is one whose condition holds. -/
theorem faultCondition_of_exec {c : FaultCode} (hs : s.mode ≠ .faulted) (h : exec i s = .next (takeFault c s)) :
    faultCondition c i s := by
  obtain ⟨d, hd, heq⟩ := exec_faulted hs h rfl
  have hcode : c = d := congrArg State.faultCode heq
  exact hcode ▸ (condition_of_mem (mem_of_firstFault hd)).1 rfl

/-- MODE_VIOLATION is raised exactly where a mode is needed and it is not the block's. -/
theorem exec_modeViolation_iff (hs : s.mode ≠ .faulted) :
    exec i s = .next (takeFault .modeViolation s) ↔ ∃ m, neededMode i = some m ∧ s.mode ≠ m :=
  ⟨faultCondition_of_exec hs, fun ⟨_, hi, hm⟩ => exec_outside_mode hi hs hm⟩

theorem exec_modeViolation_iff_of_needed {m : Mode} (hi : neededMode i = some m) (hs : s.mode ≠ .faulted) :
    exec i s = .next (takeFault .modeViolation s) ↔ s.mode ≠ m := by
  simp [exec_modeViolation_iff hs, hi]

theorem Mode.ne_write_iff {m : Mode} (h : m ≠ .faulted) : m ≠ .write ↔ m = .idle ∨ m = .read := by
  cases m <;> simp at h ⊢

theorem Mode.ne_read_iff {m : Mode} (h : m ≠ .faulted) : m ≠ .read ↔ m = .idle ∨ m = .write := by
  cases m <;> simp at h ⊢

/-- Settles O12: the table of R91 is `neededMode`, read through `exec_modeViolation_iff`. -/
theorem modeViolationFollowsTheTable : Obligations.ModeViolationFollowsTheTable := by
  intro s hs
  refine ⟨fun i hi h => ?_, fun i n b hi => ?_, fun i n hi => ?_⟩
  · obtain ⟨m, hm, -⟩ := (exec_modeViolation_iff hs).1 h
    rcases hi with rfl | rfl <;> cases hm
  · have hneed : neededMode i = some .write := by rcases hi with rfl | rfl | rfl | rfl <;> rfl
    exact (exec_modeViolation_iff_of_needed hneed hs).trans (Mode.ne_write_iff hs)
  · have hneed : neededMode i = some .read := by rcases hi with rfl | rfl | rfl <;> rfl
    exact (exec_modeViolation_iff_of_needed hneed hs).trans (Mode.ne_read_iff hs)

/-! ### The order of the checks (R99) -/

/-- An illegal word outside FAULTED (R90). -/
theorem performMove_of_illegalWord (hs : s.mode ≠ .faulted) (hw : illegalWord p.cmd) :
    performMove (.command p) s = .next (takeFault .illegalCommand { s with port := p }) := by
  rcases performCommand_cases p s with ⟨-, he⟩ | ⟨hlegal, -⟩
  · exact he.trans (execIllegal_fault hs)
  · exact absurd hw hlegal

/-- CAPACITY_EXCEEDED is a write command's fault (R96). -/
theorem neededMode_of_capacityExceeded (h : faultCondition .capacityExceeded i s) : neededMode i = some .write := by
  cases i with
  | writeBits | writeBit | stuff | flush => rfl
  | _ => exact h.elim

/-- READ_OVERRUN is a read command's fault (R97). -/
theorem neededMode_of_readOverrun (h : faultCondition .readOverrun i s) : neededMode i = some .read := by
  cases i with
  | readBits | peekBits => rfl
  | _ => exact h.elim

/-- Settles O11: the checks of a command are its fault conditions in R99's order (`firstFault_checksOf`), and no effect
leads to FAULTED (`effect_mode`). -/
theorem firstFaultConditionIsRaised : Obligations.FirstFaultConditionIsRaised := by
  refine ⟨faultedBlockIgnoresEveryCommand, fun p s => performMove_of_illegalWord, fun i s hs => ⟨fun c hc hmin => ?_,
    fun hnone t ht => ?_⟩, fun i s ⟨hcapacity, hoverrun⟩ => ?_⟩
  · exact exec_fault hs (firstFault_checksOf hc hmin)
  · rw [exec_of_checks hs (firstFault_checksOf_none hnone)] at ht
    exact effect_mode hs ht
  · have hwrite := neededMode_of_capacityExceeded hcapacity
    cases hwrite.symm.trans (neededMode_of_readOverrun hoverrun)

/-! ### Fault entry (R98) -/

/-- The checks of a command read registers and buses, no memory (R46). -/
theorem checksOf_mem (i : Instr) (s : State) (m : Memory) : checksOf i { s with mem := m } = checksOf i s := by
  cases i <;> rfl

/-- A command word that leads to FAULTED raises its fault over every memory. -/
theorem performMove_faulted (hs : s.mode ≠ .faulted) (h : performMove (.command p) s = .next t)
    (ht : t.mode = .faulted) :
    ∃ c, c ≠ .none ∧ ∀ m, performMove (.command p) { s with mem := m } =
      .next (takeFault c { s with mem := m, port := p }) := by
  rcases performCommand_cases p s with ⟨hillegal, -⟩ | ⟨-, i, hdecode, he⟩
  · exact ⟨.illegalCommand, nofun, fun m => performMove_of_illegalWord hs hillegal⟩
  · obtain ⟨c, hc, -⟩ := exec_faulted (s := { s with port := p }) hs (he.symm.trans h) ht
    refine ⟨c, (checksOf_code hc).1, fun m => ?_⟩
    rw [performMove_of_decode hdecode]
    exact exec_fault hs ((congrArg firstFault (checksOf_mem i { s with port := p } m)).trans hc)

/-- Settles O10: `performMove_faulted` over the block's own memory is the fault entry, over another the independence. -/
theorem faultEntryIsPrecise : Obligations.FaultEntryIsPrecise := by
  intro p s t hs h ht
  obtain ⟨c, hc, hall⟩ := performMove_faulted hs h ht
  cases h.symm.trans (hall s.mem)
  exact ⟨⟨c, hc, rfl⟩, rfl, hall⟩

end Sys2Proof.Machine
end

section
/-! PROOFS. The statements about the command word (30_encoding.md) and about one step (R53): the fields of a word that decodes
determine its command (R54, R59), so decoding and encoding are inverse, and a word that matches a row decodes. -/

namespace Sys2Proof.Machine

variable {w : CmdWord} {i j : Instr}

/-! ### The fields of a command's word (R59) -/

/-- OP of a command (R59). -/
def opcodeOf : Instr → BitVec 4
  | .attachW => 0x1
  | .attachR => 0x2
  | .writeBits _ => 0x3
  | .writeBit => 0x4
  | .stuff _ => 0x5
  | .flush => 0x6
  | .readBits _ => 0x8
  | .peekBits _ => 0x9
  | .readAlign => 0xA

/-- N of a command: its width, or 0 where it takes none (R59, R60). -/
def widthFieldOf : Instr → Width
  | .writeBits n => n
  | .readBits n => n
  | .peekBits n => n
  | _ => 0

/-- S of a command: its stuff bit, or 0 where it takes none (R59, R60). -/
def stuffFieldOf : Instr → Bool
  | .stuff b => b
  | _ => false

/-- The fields of the word are the command's, and RSV is 0. -/
structure FieldsOf (w : CmdWord) (i : Instr) : Prop where
  op : opField w = opcodeOf i
  width : nField w = widthFieldOf i
  stuff : sField w = stuffFieldOf i
  rsv : rsvField w = 0

theorem decodePlain_eq_ok : decodePlain w j = .ok i ↔ nField w = 0 ∧ sField w = false ∧ j = i := by
  unfold decodePlain
  split
  · simp_all
  · split <;> simp_all

theorem decodeWidth_eq_ok {f : Width → Instr} : decodeWidth w f = .ok i ↔ sField w = false ∧ f (nField w) = i := by
  unfold decodeWidth
  split <;> simp_all

theorem decodeStuff_eq_ok {f : Bool → Instr} : decodeStuff w f = .ok i ↔ nField w = 0 ∧ f (sField w) = i := by
  unfold decodeStuff
  split <;> simp_all

theorem fieldsOf_decodePlain (h : decodePlain w j = .ok i) (hop : opField w = opcodeOf j) (hrsv : rsvField w = 0)
    (hwidth : widthFieldOf j = 0) (hstuff : stuffFieldOf j = false) : FieldsOf w i := by
  obtain ⟨hn, hs, rfl⟩ := decodePlain_eq_ok.1 h
  exact ⟨hop, hn.trans hwidth.symm, hs.trans hstuff.symm, hrsv⟩

/-- A word that decodes has the fields of its command. -/
theorem fieldsOf_decode (h : decode w = .ok i) : FieldsOf w i := by
  unfold decode at h
  split at h
  · cases h
  · next hr =>
    have hrsv : rsvField w = 0 := not_not.1 hr
    split at h
    · next hop => exact fieldsOf_decodePlain h (BitVec.eq_of_toNat_eq hop) hrsv rfl rfl
    · next hop => exact fieldsOf_decodePlain h (BitVec.eq_of_toNat_eq hop) hrsv rfl rfl
    · next hop =>
      obtain ⟨hs, rfl⟩ := decodeWidth_eq_ok.1 h
      exact ⟨BitVec.eq_of_toNat_eq hop, rfl, hs, hrsv⟩
    · next hop => exact fieldsOf_decodePlain h (BitVec.eq_of_toNat_eq hop) hrsv rfl rfl
    · next hop =>
      obtain ⟨hn, rfl⟩ := decodeStuff_eq_ok.1 h
      exact ⟨BitVec.eq_of_toNat_eq hop, hn, rfl, hrsv⟩
    · next hop => exact fieldsOf_decodePlain h (BitVec.eq_of_toNat_eq hop) hrsv rfl rfl
    · next hop =>
      obtain ⟨hs, rfl⟩ := decodeWidth_eq_ok.1 h
      exact ⟨BitVec.eq_of_toNat_eq hop, rfl, hs, hrsv⟩
    · next hop =>
      obtain ⟨hs, rfl⟩ := decodeWidth_eq_ok.1 h
      exact ⟨BitVec.eq_of_toNat_eq hop, rfl, hs, hrsv⟩
    · next hop => exact fieldsOf_decodePlain h (BitVec.eq_of_toNat_eq hop) hrsv rfl rfl
    · cases h

/-- For every command: its word decodes to it, and matches the row of its mnemonic alone. -/
theorem roundTrip_statement (i : Instr) : Laws.RoundTrip.Statement i := by
  cases i with
  | attachW => exact Laws.RoundTrip.attachW
  | attachR => exact Laws.RoundTrip.attachR
  | writeBits n => exact Laws.RoundTrip.writeBits n
  | writeBit => exact Laws.RoundTrip.writeBit
  | stuff b => exact Laws.RoundTrip.stuff b
  | flush => exact Laws.RoundTrip.flush
  | readBits n => exact Laws.RoundTrip.readBits n
  | peekBits n => exact Laws.RoundTrip.peekBits n
  | readAlign => exact Laws.RoundTrip.readAlign

@[simp] theorem decode_encode (i : Instr) : decode (encode i) = .ok i := (roundTrip_statement i).1

/-- The four fields of a command are the whole of its word. -/
theorem FieldsOf.encode_eq (h : FieldsOf w i) : encode i = w := by
  have hi := fieldsOf_decode (decode_encode i)
  exact word_eq_of_fields (hi.op.trans h.op.symm) (hi.width.trans h.width.symm) (hi.stuff.trans h.stuff.symm)
    (hi.rsv.trans h.rsv.symm)

/-- Settles O1: the fields of a word that decodes are those of its command's word (`fieldsOf_decode`). -/
theorem decodeIsExactlyTheInverseOfEncode : Obligations.DecodeIsExactlyTheInverseOfEncode := by
  intro w i
  constructor
  · intro h
    exact (fieldsOf_decode h).encode_eq
  · rintro rfl
    exact decode_encode i

/-! ### The rows of the opcode map (R59, R62) -/

theorem opField_and (w m : CmdWord) : opField (w &&& m) = opField w &&& opField m := BitVec.extractLsb'_and

theorem nField_and (w m : CmdWord) : nField (w &&& m) = nField w &&& nField m := BitVec.extractLsb'_and

theorem rsvField_and (w m : CmdWord) : rsvField (w &&& m) = rsvField w &&& rsvField m := BitVec.extractLsb'_and

theorem sField_and (w m : CmdWord) : sField (w &&& m) = (sField w && sField m) := by simp [sField]

/-- A row of a command without operands matches its word alone. -/
theorem decode_of_plainRow (h : w &&& 0xFFFFFFFF = encode i) : ∃ i, decode w = .ok i := by
  have hw : w = encode i := (BitVec.and_allOnes (x := w)).symm.trans h
  exact ⟨i, hw ▸ decode_encode i⟩

/-- A row that leaves out N takes OP, S and RSV from its value. -/
theorem decode_of_widthRow {v : CmdWord} (h : w &&& 0xFFFFF80F = v) (hop : opField v = opcodeOf i)
    (hwidth : widthFieldOf i = nField w) (hstuff : sField v = stuffFieldOf i) (hrsv : rsvField v = 0) :
    ∃ i, decode w = .ok i := by
  subst h
  rw [opField_and] at hop
  rw [sField_and] at hstuff
  rw [rsvField_and] at hrsv
  have hw : FieldsOf w i := ⟨(BitVec.and_allOnes (x := opField w)).symm.trans hop, hwidth.symm,
    (Bool.and_true (sField w)).symm.trans hstuff, (BitVec.and_allOnes (x := rsvField w)).symm.trans hrsv⟩
  exact ⟨i, hw.encode_eq ▸ decode_encode i⟩

/-- The row of STUFF leaves out S and takes OP, N and RSV from its value. -/
theorem decode_of_stuffRow (h : w &&& 0xFFFFF7FF = 0x00000005) : ∃ i, decode w = .ok i := by
  have hop := (opField_and w _).symm.trans (congrArg opField h)
  have hwidth := (nField_and w _).symm.trans (congrArg nField h)
  have hrsv := (rsvField_and w _).symm.trans (congrArg rsvField h)
  have hw : FieldsOf w (.stuff (sField w)) := ⟨(BitVec.and_allOnes (x := opField w)).symm.trans hop,
    (BitVec.and_allOnes (x := nField w)).symm.trans hwidth, rfl, (BitVec.and_allOnes (x := rsvField w)).symm.trans hrsv⟩
  exact ⟨_, hw.encode_eq ▸ decode_encode _⟩

/-- A word that matches a row of the opcode map is a command. -/
theorem decode_of_matches {r : OpcodeRow} (hr : r ∈ opcodeTable) (h : r.matches w = true) : ∃ i, decode w = .ok i := by
  have hv : w &&& r.mask = r.value := by simpa [OpcodeRow.matches] using h
  simp only [opcodeTable, List.mem_cons, List.not_mem_nil, or_false] at hr
  rcases hr with rfl | rfl | rfl | rfl | rfl | rfl | rfl | rfl | rfl
  · exact decode_of_plainRow (i := .attachW) hv
  · exact decode_of_plainRow (i := .attachR) hv
  · exact decode_of_widthRow (i := .writeBits (nField w)) hv rfl rfl rfl rfl
  · exact decode_of_plainRow (i := .writeBit) hv
  · exact decode_of_stuffRow hv
  · exact decode_of_plainRow (i := .flush) hv
  · exact decode_of_widthRow (i := .readBits (nField w)) hv rfl rfl rfl rfl
  · exact decode_of_widthRow (i := .peekBits (nField w)) hv rfl rfl rfl rfl
  · exact decode_of_plainRow (i := .readAlign) hv

/-- A command's word matches the row of its mnemonic and no other. -/
theorem matches_of_decode (h : decode w = .ok i) :
    ∃ r, opcodeTable.filter (·.matches w) = [r] ∧ r.mnemonic = i.mnemonic := by
  obtain ⟨-, hrows⟩ := roundTrip_statement i
  rw [(fieldsOf_decode h).encode_eq] at hrows
  obtain ⟨r, hr, hname⟩ := List.map_eq_singleton_iff.1 hrows
  exact ⟨r, hr, hname⟩

/-- READ_BITS with a width of 0 is a command, and faults when it runs (R56, R92). -/
def readingZeroWidth : State := { State.reset with mode := .read, port := ⟨0x00000008, 0, 0, 0⟩ }

/-- Settles O2: a word that decodes matches its command's row (`matches_of_decode`), one that does not matches none
(`decode_of_matches`), and READ_BITS 0 decodes and faults. -/
theorem everyWordIsOneCommandOrIllegal : Obligations.EveryWordIsOneCommandOrIllegal := by
  refine ⟨fun w => ?_, 0x00000008, .readBits 0, readingZeroWidth, rfl, rfl, rfl, rfl⟩
  cases hw : decode w with
  | ok i =>
    obtain ⟨r, hrow, hname⟩ := matches_of_decode hw
    exact .inl ⟨i, r, rfl, hrow, hname⟩
  | error e =>
    refine .inr ⟨⟨e, rfl⟩, List.filter_eq_nil_iff.2 fun r hr hmatch => ?_⟩
    obtain ⟨i, hi⟩ := decode_of_matches hr hmatch
    cases hw.symm.trans hi

/-! ### Illegal words (R60, R61, R90) -/

/-- No decoded command raises ILLEGAL_COMMAND: R90's check comes before decoding ends. -/
theorem exec_ne_illegalCommand {s : State} (hs : s.mode ≠ .faulted) : exec i s ≠ .next (takeFault .illegalCommand s) :=
  fun h => faultCondition_of_exec hs h

/-- Settles O3: an illegal word faults (`performMove_of_illegalWord`), every other word decodes (`decode_ok_iff`), and a
decoded command has no such fault. -/
theorem illegalWordsRaiseIllegalCommand : Obligations.IllegalWordsRaiseIllegalCommand := by
  intro p s hs
  refine ⟨performMove_of_illegalWord hs, fun hlegal => ?_⟩
  obtain ⟨i, hi⟩ := (decode_ok_iff _).2 hlegal
  refine ⟨⟨i, hi⟩, ?_⟩
  rw [performMove_of_decode hi]
  exact exec_ne_illegalCommand hs

/-- Settles O4, by running the decoder on the thirteen words. -/
theorem specWordsDecodeToTheirCommands : Obligations.SpecWordsDecodeToTheirCommands := by
  unfold Obligations.SpecWordsDecodeToTheirCommands
  decide

/-! ### The assembler (R64) -/

theorem asmWidth_some {n : Nat} (h1 : 1 ≤ n) (h64 : n ≤ 64) : asmWidth n = some (BitVec.ofNat 7 n) := if_pos ⟨h1, h64⟩

theorem asmWidth_none {n : Nat} (h : n < 1 ∨ 64 < n) : asmWidth n = none := if_neg (by omega)

theorem asmBit_none {b : Nat} (h : 1 < b) : asmBit b = none := if_neg (by omega)

/-- The width field of the assembler's width, in the word (R64). -/
theorem encodeWidth_ofNat (op : CmdWord) {n : Nat} (h : n ≤ 64) :
    encodeWidth op (BitVec.ofNat 7 n) = op ||| (BitVec.ofNat 32 n <<< 4) := by
  have hn : (BitVec.ofNat 7 n).setWidth 32 = BitVec.ofNat 32 n := by
    apply BitVec.eq_of_toNat_eq
    simp only [BitVec.toNat_setWidth, BitVec.toNat_ofNat]
    omega
  rw [encodeWidth, hn]

/-- Settles O5, line by line: the widths by `encodeWidth_ofNat`, a bit by its two values. -/
theorem assemblerEmitsTheTableWords : Obligations.AssemblerEmitsTheTableWords := by
  refine ⟨fun _ _ => rfl, fun _ _ => rfl, fun n v h1 h64 => ?_, fun b hb => ?_, fun b hb => ?_, rfl, fun n h1 h64 => ?_,
    fun n h1 h64 => ?_, rfl, fun n v h => ?_, fun b hb => ?_⟩
  · simp only [assemble, asmWidth_some h1 h64, Option.map_some, portOf, encode, encodeWidth_ofNat _ h64]
    rfl
  · interval_cases b <;> rfl
  · interval_cases b <;> rfl
  · simp only [assemble, asmWidth_some h1 h64, Option.map_some, portOf, encode, encodeWidth_ofNat _ h64]
    rfl
  · simp only [assemble, asmWidth_some h1 h64, Option.map_some, portOf, encode, encodeWidth_ofNat _ h64]
    rfl
  · simp only [assemble, asmWidth_none h, Option.map_none, and_self]
  · simp only [assemble, asmBit_none hb, Option.map_none, and_self]

/-! ### One step (R53) -/

/-- Settles O7: the two ways of `step_cases`. -/
theorem stepTakesTheNextMoveOrWaits : Obligations.StepTakesTheNextMoveOrWaits := by
  intro s
  rcases step_cases s with ⟨hnone, hstep⟩ | ⟨m, rest, hm, hstep⟩
  · exact ⟨fun _ => hstep, fun m rest hm => by simp [hnone] at hm⟩
  · refine ⟨fun hnone => by simp [hnone] at hm, fun m' rest' hm' => ?_⟩
    cases hm.symm.trans hm'
    exact hstep

/-- Settles O6: the next move is the command (`stepTakesTheNextMoveOrWaits`), and its word decodes to `i`. -/
theorem stepRunsTheDecodedCommand : Obligations.StepRunsTheDecodedCommand := by
  intro s p rest i hm hi
  rw [(stepTakesTheNextMoveOrWaits s).2 _ _ hm, performMove_of_decode hi]

end Sys2Proof.Machine
end

section
/-! PROOFS. The statements about the attaches (40_session.md R67 to R70, R47): the effect of an attach whose window fits, the
refusal over a device, and what an attach leaves. -/

namespace Sys2Proof.Machine

variable {s t : State} {i : Instr}

/-! ### An accepted attach (R67, R68) -/

/-- An attach with a window that fits raises no fault, and opens the session or is refused (R47). -/
theorem exec_attach_of_fits (hi : i = .attachW ∨ i = .attachR) (hs : s.mode ≠ .faulted) (h0 : s.abase ≠ 0)
    (hfits : s.abase + s.alen ≤ 2 ^ s.cfg.aw) (hcap : s.alen ≤ s.cfg.maxCap) : exec i s = effectOf i s := by
  refine exec_of_checks hs ?_
  rw [firstFault_attach hi, if_neg h0, if_neg (by omega)]

theorem effectOf_attachW (h : coversDevice s.cfg s.abase s.alen = false) :
    effectOf .attachW s = .next (openSession .write s) := by
  simp [effectOf, h]

theorem effectOf_attachR (h : coversDevice s.cfg s.abase s.alen = false) :
    effectOf .attachR s = .next (openSession .read s) := by
  simp [effectOf, h]

/-- Settles O19: the checks pass (`exec_attach_of_fits`), and the effect is `openSession`. -/
theorem attachForWritingOpensTheSession : Obligations.AttachForWritingOpensTheSession := by
  intro s hs h0 hfits hcap hdevice
  exact (exec_attach_of_fits (.inl rfl) hs h0 hfits hcap).trans (effectOf_attachW hdevice)

/-- Settles O20, as O19 for the mode READ. -/
theorem attachForReadingOpensTheSession : Obligations.AttachForReadingOpensTheSession := by
  intro s hs h0 hfits hcap hdevice
  exact (exec_attach_of_fits (.inr rfl) hs h0 hfits hcap).trans (effectOf_attachR hdevice)

/-! ### A window over a device (R47) -/

/-- A window that holds an address of a device region covers a device. -/
theorem coversDevice_of_mem {c : Config} {r : Region} {a base len : Nat} (hr : r ∈ c.devices) (h1 : r.base ≤ a)
    (h2 : a < r.base + r.size) (h3 : base ≤ a) (h4 : a < base + len) : coversDevice c base len = true := by
  refine List.any_eq_true.2 ⟨r, hr, ?_⟩
  simp only [meetsRegion, decide_eq_true_iff]
  omega

theorem effectOf_attach_refused (hi : i = .attachW ∨ i = .attachR) (h : coversDevice s.cfg s.abase s.alen = true) :
    effectOf i s = .refused .attachOverDevice := by
  rcases hi with rfl | rfl <;> simp [effectOf, h]

/-- Settles O22: no fault comes first (`exec_attach_of_fits`), and the shared address makes the window cover the region. -/
theorem deviceWindowsAreRefused : Obligations.DeviceWindowsAreRefused := by
  intro i s r a hi hs h0 hfits hcap hr h1 h2 h3 h4
  exact (exec_attach_of_fits hi hs h0 hfits hcap).trans (effectOf_attach_refused hi (coversDevice_of_mem hr h1 h2 h3 h4))

/-! ### The frame of an attach (R69) -/

/-- An attach that has its effect opens a session. -/
theorem effect_attach (hi : i = .attachW ∨ i = .attachR) (h : effectOf i s = .next t) :
    ∃ m, m ≠ .faulted ∧ t = openSession m s := by
  rcases hi with rfl | rfl
  · exact ⟨.write, nofun, effect_attachW h⟩
  · exact ⟨.read, nofun, effect_attachR h⟩

/-- Settles O23, over the three ways a command ends. -/
theorem attachLeavesMemoryAndDout : Obligations.AttachLeavesMemoryAndDout := by
  intro i s t hi h
  obtain ⟨hcfg, hport, hmoves⟩ := exec_env h
  rcases exec_cases i s with ⟨hs, he⟩ | ⟨hs, c, -, he⟩ | ⟨hs, -, he⟩
  · cases he.symm.trans h
    exact ⟨fun _ => rfl, rfl, hcfg, hport, hmoves, fun _ => ⟨rfl, rfl, rfl⟩, fun _ => ⟨rfl, rfl, rfl, rfl, rfl⟩⟩
  · cases he.symm.trans h
    exact ⟨fun _ => rfl, rfl, hcfg, hport, hmoves, fun ht => absurd rfl ht, fun _ => ⟨rfl, rfl, rfl, rfl, rfl⟩⟩
  · obtain ⟨m, hm, rfl⟩ := effect_attach hi (he.symm.trans h)
    exact ⟨fun _ => rfl, rfl, hcfg, hport, hmoves, fun _ => ⟨rfl, rfl, rfl⟩, fun ht => absurd ht hm⟩

end Sys2Proof.Machine
end

section
/-! PROOFS. The remaining statements about single write commands (41_write.md): FLUSH (R77), WRITE_BITS of width 1 (R74), the
mask policy (R58), and the frame of the four commands (R71). -/

namespace Sys2Proof.Machine

variable {s t : State} {i : Instr} {n : Width}

/-! ### FLUSH (R77) -/

/-- FLUSH is STUFF 0, its faults too (R76, R77). -/
theorem exec_flush (s : State) : exec .flush s = exec (.stuff false) s := rfl

/-- Settles O27: FLUSH is STUFF 0 (`exec_flush`), whose padding bits leave the pending ones as they are. -/
theorem flushStoresThePartialByte : Obligations.FlushStoresThePartialByte := by
  intro s
  obtain ⟨houtside, hboundary, hfull, hstored⟩ := stuffPadsToTheByteBoundary false s
  refine ⟨houtside, hboundary, hfull, fun hm h1 h7 hroom hf => ?_, exec_flush s⟩
  simpa using (exec_flush s).trans (hstored hm h1 h7 hroom hf)

/-! ### WRITE_BITS of width 1 (R74) -/

theorem firstFault_writeBits_one (s : State) : firstFault (checksOf (.writeBits 1) s) = firstFault (checksOf .writeBit s) := by
  have hone : widthOf 1 = 1 := rfl
  have hlegal : badWidth 1 = false := rfl
  simp only [checksOf, firstFault_cons, hone, hlegal, Bool.false_eq_true, if_false]

theorem effectOf_writeBits_one (s : State) : effectOf (.writeBits 1) s = effectOf .writeBit s := by
  have hfield : fieldBits s.din (widthOf 1) = [s.dinBit] := rfl
  simp only [effectOf, writeField_eq, hfield, writeAll_singleton]

/-- Settles O28: the same first fault, and the same effect. -/
theorem writeBitsOfWidthOneIsWriteBit : Obligations.WriteBitsOfWidthOneIsWriteBit := by
  intro s
  simp only [exec_eq, runChecked, firstFault_writeBits_one, effectOf_writeBits_one]

/-! ### The mask policy (R8, R58) -/

/-- A field is the low bits of its value. -/
theorem fieldBits_congr {v v' : Data} {k : Nat} (h : ∀ j, j < k → v.getLsbD j = v'.getLsbD j) :
    fieldBits v k = fieldBits v' k := by
  refine List.map_congr_left fun j hj => h _ ?_
  have := List.mem_range.1 hj
  omega

/-- Under the mask policy no value is overwide (R8). -/
theorem overwideValue_of_mask {k : Nat} (h : s.cfg.overwide = .mask) : overwideValue k s = false := by
  simp [overwideValue, h]

/-- Under the mask policy the checks of WRITE_BITS do not read DIN. -/
theorem checksOf_writeBits_din (h : s.cfg.overwide = .mask) (p : Port) :
    checksOf (.writeBits n) { s with port := p } = checksOf (.writeBits n) s := by
  have hport : overwideValue (widthOf n) { s with port := p } = false := overwideValue_of_mask h
  simp only [checksOf, hport, overwideValue_of_mask h]
  rfl

/-- The effect of WRITE_BITS depends on DIN through the field alone. -/
theorem effectOf_writeBits_port {p : Port} (hfield : fieldBits p.din n.toNat = fieldBits s.din n.toNat)
    (h : effectOf (.writeBits n) s = .next t) :
    effectOf (.writeBits n) { s with port := p } = .next { t with port := p } := by
  have hw : writeAll (fieldBits s.din n.toNat) s = .ok t := (writeField_eq _ _ _).symm.trans (finish_next.1 h)
  refine finish_next.2 ((writeField_eq p.din n.toNat _).trans ?_)
  rw [hfield, writeAll_port, hw]
  rfl

/-- Settles O29: neither the checks nor the field see the bits at and above n, and `exec_port` does the rest. -/
theorem maskPolicyIgnoresTheHighBits : Obligations.MaskPolicyIgnoresTheHighBits := by
  intro n s t d hmask hlow h
  have henv := (exec_env h).2.1
  rw [henv]
  exact exec_port _ s { s.port with din := d } rfl (congrArg firstFault (checksOf_writeBits_din hmask _))
    (fun _ u hu => effectOf_writeBits_port (fieldBits_congr hlow) hu) t h

/-! ### The frame of the write commands (R71, R42) -/

/-- Settles O31: a command that faults leaves what fault entry leaves, one that does not writes at most its bytes
(`effect_write_frame`). -/
theorem writeCommandsTouchOnlyTheirBytes : Obligations.WriteCommandsTouchOnlyTheirBytes := by
  intro i s t hi h
  obtain ⟨hcfg, hport, hmoves⟩ := exec_env h
  rcases exec_cases i s with ⟨hs, he⟩ | ⟨hs, c, -, he⟩ | ⟨hs, -, he⟩
  · cases he.symm.trans h
    exact ⟨rfl, rfl, rfl, hcfg, hport, hmoves, fun _ _ => rfl, fun _ => ⟨rfl, rfl, rfl, rfl⟩,
      fun _ => ⟨rfl, rfl, rfl, fun _ => rfl⟩⟩
  · cases he.symm.trans h
    exact ⟨rfl, rfl, rfl, hcfg, hport, hmoves, fun _ _ => rfl, fun ht => absurd rfl ht,
      fun _ => ⟨rfl, rfl, rfl, fun _ => rfl⟩⟩
  · have heffect := he.symm.trans h
    have hw := effect_write_frame hi heffect
    have hbound := hw.bound
    have hregs : t.base = s.base ∧ t.cap = s.cap ∧ t.dout = s.dout ∧ t.mode = s.mode := by
      rw [hw.same]
      exact ⟨rfl, rfl, rfl, rfl⟩
    obtain ⟨hbase, hcap, hdout, hmode⟩ := hregs
    exact ⟨hbase, hcap, hdout, hcfg, hport, hmoves, fun a ha => hw.outside a (by omega),
      fun _ => ⟨hmode, effect_record heffect⟩, fun ht => absurd ht (effect_mode hs heffect)⟩

end Sys2Proof.Machine
end

section
/-! PROOFS. The statements about a write session (41_write.md section 3): what a session holds, as an invariant over its
commands and the stores between them (R79), and the length FLUSH leaves (R80). -/

namespace Sys2Proof.Machine

variable {s t : State} {i : Instr} {bits : List Bool}

/-! ### The stream of the registers and the window (R18, R79) -/

@[simp] theorem written_length (s : State) : s.written.length = 8 * s.bytesUsed + s.regUsed.toNat := by
  simp [State.written]

theorem written_getElem? {k : Nat} (h : k < 8 * s.bytesUsed + s.regUsed.toNat) :
    s.written[k]? = some (s.writtenBit k) := by
  simp [State.written, h]

/-- A committed bit is in memory. -/
theorem writtenBit_committed {k : Nat} (h : k < 8 * s.bytesUsed) :
    s.writtenBit k = (s.mem.read (s.base + k / 8)).getLsbD (7 - k % 8) := if_pos h

/-- A pending bit is in REG. -/
theorem writtenBit_pending (s : State) (j : Nat) : s.writtenBit (8 * s.bytesUsed + j) = s.reg.getLsbD (7 - j) := by
  simp [State.writtenBit]

/-- A memory that reads alike at the committed bytes holds the same stream. -/
theorem written_of_mem {m : Memory} (h : ∀ a, s.base ≤ a → a < s.base + s.bytesUsed → m.read a = s.mem.read a) :
    State.written { s with mem := m } = s.written := by
  refine List.map_congr_left fun k _ => ?_
  by_cases hk : k < 8 * s.bytesUsed
  · rw [writtenBit_committed (s := { s with mem := m }) hk, writtenBit_committed hk]
    exact congrArg (·.getLsbD (7 - k % 8)) (h (s.base + k / 8) (by omega) (by omega))
  · simp only [State.writtenBit, if_neg hk]

/-! ### The bits a command adds (R79) -/

/-- The bits to the next byte boundary depend on the bits past the last one alone (R76). -/
theorem padLength_add (q r : Nat) : padLength (8 * q + r) = padLength r := by
  unfold padLength
  omega

/-- The stream grows by the bits the command's effect writes. -/
theorem commandBits_eq (hi : neededMode i = some .write) (s : State) :
    commandBits i s.din (8 * s.bytesUsed + s.regUsed.toNat) = bitsOf i s := by
  cases i with
  | writeBits n => rfl
  | writeBit => rfl
  | stuff b => simp only [commandBits, bitsOf, padLength_add]
  | flush => simp only [commandBits, bitsOf, padLength_add]
  | _ => cases hi

/-! ### The invariant of a write session (R79) -/

/-- A write session between two commands: its cursor, its bytes inside the window, and `bits` the stream it has written. -/
structure HoldsStream (s : State) (bits : List Bool) : Prop where
  mode : s.mode = .write
  cursor : s.WriteCursor
  used : s.bytesUsed ≤ s.cap
  stream : s.written = bits

/-- A session starts with an empty stream (R67). -/
theorem holdsStream_attach (h : exec .attachW s = .next t) (ht : t.mode = .write) : HoldsStream t [] := by
  obtain ⟨-, -, he⟩ := exec_effect h (by simp [ht])
  obtain rfl := effect_attachW he
  exact ⟨rfl, ⟨by simp, fun j _ => by simp⟩, Nat.zero_le _, rfl⟩

/-- A write command without a fault adds its bits to the stream. -/
theorem HoldsStream.command {p : Port} (hs : HoldsStream s bits) (hi : neededMode i = some .write)
    (h : exec i { s with port := p } = .next t) (ht : t.mode = .write) :
    HoldsStream t (bits ++ commandBits i p.din bits.length) := by
  obtain ⟨-, hchecks, he⟩ := exec_effect h (by simp [ht])
  have ha := effect_appended (s := { s with port := p }) hi (hs.cursor.of_eq rfl rfl) he
  refine ⟨ht, ha.cursor, effect_bytesUsed_le (s := { s with port := p }) hs.used hchecks he, ?_⟩
  have hbits := commandBits_eq hi { s with port := p }
  rw [ha.written, ← hs.stream, written_length]
  exact congrArg (s.written ++ ·) hbits.symm

/-- A store the host is allowed leaves the window of the session, and so its stream (R48). -/
theorem HoldsStream.store {a : Nat} {v : Byte} (hs : HoldsStream s bits) (h : hostStore a v s = .next t) :
    HoldsStream t bits := by
  obtain ⟨howned, -, rfl⟩ := hostStore_next h
  have hsession : s.inSession = true := by simp [State.inSession, State.sessionMode, hs.mode]
  have houtside : ¬ s.inWindow a := fun hw => howned ⟨hsession, hw⟩
  have hused := hs.used
  refine ⟨hs.mode, hs.cursor.of_eq rfl rfl, hused, (written_of_mem fun b h1 h2 => ?_).trans hs.stream⟩
  refine Memory.read_write_other _ _ _ _ ?_
  rintro rfl
  exact houtside ⟨h1, by omega⟩

/-- Every write session holds its stream. -/
theorem WriteSession.holdsStream (h : WriteSession s bits) : HoldsStream s bits := by
  induction h with
  | attach s t h ht => exact holdsStream_attach h ht
  | command s t bits p i _ hi h ht ih => exact ih.command hi h ht
  | store s t bits a v _ h ih => exact ih.store h

theorem HoldsStream.length_eq (h : HoldsStream s bits) : bits.length = 8 * s.bytesUsed + s.regUsed.toNat := by
  rw [← h.stream, written_length]

/-- A committed bit of the stream, as memory holds it. -/
theorem HoldsStream.committed (h : HoldsStream s bits) {k : Nat} (hk : k < 8 * s.bytesUsed) :
    some ((s.mem.read (s.base + k / 8)).getLsbD (7 - k % 8)) = bits[k]? := by
  rw [← h.stream, written_getElem? (by omega), writtenBit_committed hk]

/-- Settles O32: the session's invariant (`WriteSession.holdsStream`), read bit by bit. -/
theorem writeSessionHoldsItsStream : Obligations.WriteSessionHoldsItsStream := by
  intro s bits h
  have hs := h.holdsStream
  refine ⟨hs.length_eq, hs.cursor.few, fun k => hs.committed, fun j hj => ?_⟩
  rw [← hs.stream, written_getElem? (by omega), writtenBit_pending]

/-! ### FLUSH (R80) -/

/-- FLUSH fills the last byte of the stream: it leaves no bit pending. -/
theorem HoldsStream.bytesUsed_of_padded {b : Bool}
    (h : HoldsStream t (bits ++ List.replicate (padLength bits.length) b)) : t.bytesUsed = (bits.length + 7) / 8 := by
  have hlen := h.length_eq
  have hfew := h.cursor.few
  simp only [List.length_append, List.length_replicate, padLength] at hlen
  omega

/-- Settles O33: the FLUSH is one more command of the session (`HoldsStream.command`). -/
theorem flushLeavesTheLengthInBytesUsed : Obligations.FlushLeavesTheLengthInBytesUsed := by
  intro s t bits h hflush ht
  have hs := h.holdsStream.command (p := s.port) (i := .flush) rfl hflush ht
  refine ⟨hs.bytesUsed_of_padded, fun k hk => ?_⟩
  have hused := hs.bytesUsed_of_padded
  rw [hs.committed (by omega), List.getElem?_append_left hk]

end Sys2Proof.Machine
end

section
/-! PROOFS. The statements about READ_BITS and PEEK_BITS (42_read.md): their faults as one conditional (R99), the bits they
return (R83, R86), reads of the parts of a field (R39), and the frame of the three read commands (R43). -/

namespace Sys2Proof.Machine

variable {s t u : State} {i : Instr} {n : Width} {bs : List Bool}

/-! ### The faults of READ_BITS and PEEK_BITS (R82, R99) -/

/-- A read command in IDLE or WRITE (R91). -/
theorem exec_read_outside_mode (hi : neededMode i = some .read) (hm : s.mode = .idle ∨ s.mode = .write) :
    exec i s = .next (takeFault .modeViolation s) := by
  rcases hm with hm | hm <;> exact exec_outside_mode hi (by simp [hm]) (by simp [hm])

theorem not_faulted_of_read (hm : s.mode = .read) : s.mode ≠ .faulted := by simp [hm]

theorem badWidth_iff_not_legalWidth : badWidth n = true ↔ ¬ legalWidth n := by
  rw [badWidth_iff]
  omega

/-- The fault of a read command of n bits in READ. -/
theorem firstFault_readChecks (hm : s.mode = .read) : firstFault (readChecks n s) =
    if ¬ legalWidth n then some .badWidth
    else if 8 * s.cap < s.bitpos + n.toNat then some .readOverrun
    else none := by
  simp only [readChecks, firstFault_cons, firstFault_nil, modeViolation_eq_false.2 hm, Bool.false_eq_true, if_false,
    badWidth_iff_not_legalWidth, readOverrun_iff, widthOf]

theorem firstFault_readChecks_badWidth (hm : s.mode = .read) (hw : ¬ legalWidth n) :
    firstFault (readChecks n s) = some .badWidth := by
  rw [firstFault_readChecks hm, if_pos hw]

theorem firstFault_readChecks_readOverrun (hm : s.mode = .read) (hw : legalWidth n)
    (hover : 8 * s.cap < s.bitpos + n.toNat) : firstFault (readChecks n s) = some .readOverrun := by
  rw [firstFault_readChecks hm, if_neg (not_not_intro hw), if_pos hover]

theorem firstFault_readChecks_none (hm : s.mode = .read) (hw : legalWidth n)
    (hroom : s.bitpos + n.toNat ≤ 8 * s.cap) : firstFault (readChecks n s) = none := by
  rw [firstFault_readChecks hm, if_neg (not_not_intro hw), if_neg (not_lt.2 hroom)]

/-! ### The value read (R83, R84) -/

/-- DOUT after a read of these bits, the first most significant. -/
def readValue (bs : List Bool) : Data := BitVec.ofNat 64 (bitsValue 0 bs)

/-- The last bit read is bit 0 of DOUT, and the bits above the field are 0. -/
theorem readValue_getLsbD (h : bs.length ≤ 64) (k : Nat) :
    (readValue bs).getLsbD k = if k < bs.length then bs.getD (bs.length - 1 - k) false else false := by
  rw [readValue, BitVec.getLsbD_ofNat, bitsValue_testBit]
  by_cases hk : k < bs.length
  · simp [hk, show k < 64 by omega]
  · simp [hk]

/-- Where the bits of a read are in order, DOUT is their value. -/
theorem readValue_toNat (h : bs.length ≤ 64) : (readValue bs).toNat = bitsValue 0 bs := by
  rw [readValue, BitVec.toNat_ofNat]
  exact Nat.mod_eq_of_lt ((bitsValue_lt bs).trans_le (Nat.pow_le_pow_right (by omega) h))

theorem effectOf_readBits (h : readAll n.toNat s = .ok (bs, u)) :
    effectOf (.readBits n) s = .next { u with dout := readValue bs } := by
  simp only [effectOf, widthOf, readField_eq, h, keepRead, readValue]

theorem effectOf_peekBits (h : readAll n.toNat s = .ok (bs, u)) :
    effectOf (.peekBits n) s = .next { s with dout := readValue bs } := by
  simp only [effectOf, widthOf, readField_eq, h, restoreRead, readValue]
  rw [(readAll_frame h).1.same]

/-- READ_BITS whose checks pass leaves the cursor where its reads do (R83). -/
theorem exec_readBits (hs : s.mode ≠ .faulted) (hchecks : firstFault (readChecks n s) = none)
    (hr : readAll n.toNat s = .ok (bs, u)) : exec (.readBits n) s = .next { u with dout := readValue bs } :=
  (exec_of_checks (i := .readBits n) hs hchecks).trans (effectOf_readBits hr)

/-- PEEK_BITS whose checks pass changes DOUT alone (R84). -/
theorem exec_peekBits (hs : s.mode ≠ .faulted) (hchecks : firstFault (readChecks n s) = none)
    (hr : readAll n.toNat s = .ok (bs, u)) : exec (.peekBits n) s = .next { s with dout := readValue bs } :=
  (exec_of_checks (i := .peekBits n) hs hchecks).trans (effectOf_peekBits hr)

/-- READ_BITS and PEEK_BITS of n bits inside the window read them, and leave their value in DOUT. -/
theorem read_answers (hm : s.mode = .read) (hw : legalWidth n) (hroom : s.bitpos + n.toNat ≤ 8 * s.cap)
    (hf : s.windowFits) : ∃ bs u, readAll n.toNat s = .ok (bs, u) ∧
      exec (.readBits n) s = .next { u with dout := readValue bs } ∧
      exec (.peekBits n) s = .next { s with dout := readValue bs } := by
  have hchecks := firstFault_readChecks_none hm hw hroom
  obtain ⟨-, bs, u, hr⟩ := readChecks_answers hf hchecks
  have hs := not_faulted_of_read hm
  exact ⟨bs, u, hr, exec_readBits hs hchecks hr, exec_peekBits hs hchecks hr⟩

/-! ### READ_BITS (R83, R86) -/

/-- Bits read from a read cursor are the stream bits from its position on (R86). -/
theorem Consumed.getD (h : Consumed s t bs) {j : Nat} (hj : j < bs.length) :
    bs.getD j false = s.windowBit (8 * s.bytesUsed - s.regUsed.toNat + j) := by
  rw [h.bits]
  simp [hj]

/-- REG is what is left of the byte fetched last, also when nothing is left (R24, R31). -/
theorem State.ReadCursor.reg_eq (h : s.ReadCursor) :
    s.reg = s.mem.read (s.base + s.bytesUsed - 1) <<< (8 - s.regUsed.toNat) := by
  by_cases h0 : s.regUsed = 0
  · have hreg : s.reg = 0 := BitVec.eq_of_getLsbD_eq fun k hk => by simpa using h.rest k (by simpa [h0] using hk)
    rw [hreg, h0]
    exact (BitVec.shiftLeft_eq_zero (by decide)).symm
  · exact h.copy h0

/-- The cursor moves by the bits read (R22, R24). -/
theorem Consumed.position_eq (h : Consumed s t bs) (hc : s.ReadCursor) :
    8 * t.bytesUsed - t.regUsed.toNat = 8 * s.bytesUsed - s.regUsed.toNat + bs.length := by
  have hcount := h.count
  have hs := hc.fetched
  have ht := h.cursor.fetched
  omega

/-- Settles O34: the faults by `firstFault_readChecks`, the completed read by `read_answers` and `readAll_consumed`. -/
theorem readBitsReturnsTheStreamBits : Obligations.ReadBitsReturnsTheStreamBits := by
  intro n s
  refine ⟨fun hm => exec_read_outside_mode rfl hm,
    fun hm hw => exec_fault (not_faulted_of_read hm) (firstFault_readChecks_badWidth hm hw),
    fun hm hw hover => exec_fault (not_faulted_of_read hm) (firstFault_readChecks_readOverrun hm hw hover),
    fun hm hw hroom hf hc => ?_⟩
  obtain ⟨bs, u, hr, hread, -⟩ := read_answers hm hw hroom hf
  obtain ⟨hframe, hlen⟩ := readAll_frame hr
  have hu := readAll_consumed hc hr
  have humode : u.mode = .read := by rw [hframe.same, hm]
  have humem : u.mem = s.mem ∧ u.base = s.base := by
    rw [hframe.same]
    exact ⟨rfl, rfl⟩
  have hpos := hu.position_eq hc
  have hspos := bitpos_of_read hm
  have hupos := bitpos_of_read (s := { u with dout := readValue bs }) humode
  have hfew := hu.cursor.few
  have hfetched := hu.cursor.fetched
  simp only at hupos
  refine ⟨_, hread, fun j hj => ?_, fun k hk => ?_, by omega, by show u.bytesUsed = _; omega,
    by show u.regUsed.toNat = 8 * u.bytesUsed - _; omega, ?_, ?_⟩
  · rw [readValue_getLsbD (by omega), if_pos (by omega), show bs.length - 1 - (n.toNat - 1 - j) = j by omega,
      hu.getD (by omega), hspos]
    rfl
  · rw [readValue_getLsbD (by omega), if_neg (by omega)]
  · rw [← humem.1, ← humem.2]
    exact hu.cursor.reg_eq
  · rw [hframe.same]

/-! ### PEEK_BITS (R84, R87) -/

/-- Settles O35: the checks are those of READ_BITS, and both effects read the same bits (`read_answers`). -/
theorem peekBitsMovesNothing : Obligations.PeekBitsMovesNothing := by
  intro n s
  refine ⟨fun hm => exec_read_outside_mode rfl hm,
    fun hm hw => exec_fault (not_faulted_of_read hm) (firstFault_readChecks_badWidth hm hw),
    fun hm hw hover => exec_fault (not_faulted_of_read hm) (firstFault_readChecks_readOverrun hm hw hover),
    fun hm hw hroom hf => ?_⟩
  obtain ⟨bs, u, -, hread, hpeek⟩ := read_answers hm hw hroom hf
  exact ⟨_, hread, hpeek⟩

/-- Neither the checks nor the reads of READ_BITS see DOUT. -/
theorem exec_readBits_dout (hs : s.mode ≠ .faulted) (hchecks : firstFault (readChecks n s) = none) (d : Data)
    (h : readAll n.toNat s = .ok (bs, u)) :
    exec (.readBits n) { s with dout := d } = .next { u with dout := readValue bs } := by
  have hread : readAll n.toNat { s with dout := d } = .ok (bs, { u with dout := d }) := by
    rw [readAll_dout, h]
  exact exec_readBits (s := { s with dout := d }) (u := { u with dout := d }) hs hchecks hread

/-- Settles O36, over the three ways the peek ends; READ_BITS after it reads the bits it would have read before. -/
theorem peekThenReadIsRead : Obligations.PeekThenReadIsRead := by
  intro n s u h
  rcases exec_cases (.peekBits n) s with ⟨hs, he⟩ | ⟨hs, c, hc, he⟩ | ⟨hs, hchecks, he⟩
  · cases he.symm.trans h
    refine ⟨rfl, fun t ht => ?_⟩
    cases (exec_in_faulted (.readBits n) hs).symm.trans ht
    rfl
  · cases he.symm.trans h
    have hignored := exec_in_faulted (s := takeFault c s) (.readBits n) rfl
    refine ⟨hignored.trans (exec_fault (i := .readBits n) hs hc).symm, fun t ht => ?_⟩
    cases hignored.symm.trans ht
    rfl
  · obtain ⟨bs, r, hr, rfl⟩ := effect_peekBits (he.symm.trans h)
    have hread := exec_readBits_dout hs hchecks (readValue bs) hr
    refine ⟨hread.trans (exec_readBits_dout hs hchecks s.dout hr).symm, fun t ht => ?_⟩
    cases hread.symm.trans ht
    rfl

/-! ### Reads of the parts of a field (R39) -/

/-- DOUT after the reads of two parts is put together as the field is (R39). -/
theorem readValue_append (bs cs : List Bool) :
    readValue (bs ++ cs) = (readValue bs <<< cs.length) ||| readValue cs := by
  refine BitVec.eq_of_getLsbD_eq fun k hk => ?_
  simp only [readValue, bitsValue_append, BitVec.getLsbD_ofNat, BitVec.getLsbD_or, BitVec.getLsbD_shiftLeft,
    Nat.testBit_or, Nat.testBit_shiftLeft]
  by_cases hlow : k < cs.length
  · simp [hk, hlow]
  · simp [hk, hlow, show k - cs.length < 64 by omega, Nat.le_of_not_lt hlow]

/-- Settles O37: the second part is read from where the first ended, and READ_BITS of the field reads both
(`readAll_append`). -/
theorem readsOfThePartsConcatenate : Obligations.ReadsOfThePartsConcatenate := by
  intro n m k s hm hn hm' hk hsum hroom hf hc
  obtain ⟨bs, r, hr, hread, -⟩ := read_answers (n := n) hm hn (by omega) hf
  obtain ⟨hframe, hlen⟩ := readAll_frame hr
  have hpos := (readAll_consumed hc hr).position_eq hc
  have hspos := bitpos_of_read hm
  have hregs : r.mode = .read ∧ r.cap = s.cap ∧ r.windowFits := by
    rw [hframe.same]
    exact ⟨hm, rfl, hf⟩
  obtain ⟨hrmode, hrcap, hrfits⟩ := hregs
  have hrpos := bitpos_of_read hrmode
  obtain ⟨cs, u, hu, -⟩ := read_answers (n := m) hrmode hm' (by omega) hrfits
  have hlen' := (readAll_frame hu).2
  have hboth : readAll k.toNat s = .ok (bs ++ cs, u) := by
    rw [hsum]
    exact readAll_append hr hu
  have hchecks := firstFault_readChecks_none hrmode hm' (by omega)
  refine ⟨_, _, hread, exec_readBits_dout (not_faulted_of_read hrmode) hchecks _ hu, ?_⟩
  rw [exec_readBits (not_faulted_of_read hm) (firstFault_readChecks_none hm hk hroom) hboth, readValue_append, hlen']

/-! ### The frame of the read commands (R29, R43) -/

/-- A read command's effect changes the cursor and DOUT alone. -/
theorem effect_read_frame (hi : neededMode i = some .read) (h : effectOf i s = .next t) :
    t = { s with reg := t.reg, regUsed := t.regUsed, bytesUsed := t.bytesUsed, dout := t.dout } := by
  cases i with
  | readBits n =>
    obtain ⟨bs, u, hr, rfl⟩ := effect_readBits h
    rw [(readAll_frame hr).1.same]
  | peekBits n =>
    obtain ⟨bs, u, -, rfl⟩ := effect_peekBits h
    rfl
  | readAlign =>
    cases h
    rfl
  | _ => cases hi

/-- READ_ALIGN keeps BYTES_USED and DOUT (R85). -/
theorem effect_readAlign_keeps (h : effectOf .readAlign s = .next t) : t.bytesUsed = s.bytesUsed ∧ t.dout = s.dout := by
  cases h
  exact ⟨rfl, rfl⟩

/-- PEEK_BITS keeps the cursor (R84). -/
theorem effect_peekBits_keeps (h : effectOf (.peekBits n) s = .next t) :
    t.bytesUsed = s.bytesUsed ∧ t.reg = s.reg ∧ t.regUsed = s.regUsed := by
  obtain ⟨bs, u, -, rfl⟩ := effect_peekBits h
  exact ⟨rfl, rfl, rfl⟩

/-- Settles O39, over the three ways a command ends. -/
theorem readCommandsStoreNothing : Obligations.ReadCommandsStoreNothing := by
  intro i s t hi h
  obtain ⟨hcfg, hport, hmoves⟩ := exec_env h
  rcases exec_cases i s with ⟨hs, he⟩ | ⟨hs, c, -, he⟩ | ⟨hs, -, he⟩
  · cases he.symm.trans h
    exact ⟨fun _ => rfl, rfl, rfl, hcfg, hport, hmoves, fun _ => ⟨rfl, rfl, rfl, rfl⟩, fun _ => ⟨rfl, rfl, rfl, rfl⟩,
      fun _ => ⟨rfl, rfl⟩, fun _ _ => ⟨rfl, rfl, rfl⟩⟩
  · cases he.symm.trans h
    exact ⟨fun _ => rfl, rfl, rfl, hcfg, hport, hmoves, fun ht => absurd rfl ht, fun _ => ⟨rfl, rfl, rfl, rfl⟩,
      fun _ => ⟨rfl, rfl⟩, fun _ _ => ⟨rfl, rfl, rfl⟩⟩
  · have heffect := he.symm.trans h
    have hregs : t.mem = s.mem ∧ t.base = s.base ∧ t.cap = s.cap ∧ t.mode = s.mode := by
      rw [effect_read_frame hi heffect]
      exact ⟨rfl, rfl, rfl, rfl⟩
    obtain ⟨hmem, hbase, hcap, hmode⟩ := hregs
    exact ⟨fun _ => by rw [hmem], hbase, hcap, hcfg, hport, hmoves, fun _ => ⟨hmode, effect_record heffect⟩,
      fun ht => absurd ht (effect_mode hs heffect), fun hi => effect_readAlign_keeps (hi ▸ heffect),
      fun n hi => effect_peekBits_keeps (n := n) (hi ▸ heffect)⟩

end Sys2Proof.Machine
end

section
/-! PROOFS. The statements about moves of the outside world: stores (R48, R109), the transitions of MODE (R104), and runs of a
faulted block (R100, R101). -/

namespace Sys2Proof.Machine

variable {s t u : State} {i : Instr} {m : HostMove} {a : Nat} {v : Byte}

/-! ### Stores (R48, R109) -/

theorem hostStore_in_window (hs : s.inSession = true) (ha : s.inWindow a) :
    hostStore a v s = .refused .hostStoreIntoActiveWindow := if_pos ⟨hs, ha⟩

/-- A store into ordinary memory that no session owns writes its byte. -/
theorem hostStore_ordinary (howned : ¬ (s.inSession = true ∧ s.inWindow a)) (hdevice : coversDevice s.cfg a 1 = false)
    (ha : a < 2 ^ s.cfg.aw) : hostStore a v s = .next { s with mem := s.mem.write a v } := by
  have hdevice' : ¬ coversDevice s.cfg a 1 = true := by simp [hdevice]
  rw [hostStore, if_neg howned, if_neg hdevice', memWrite, if_pos ha]
  rfl

/-- Settles O9: the store writes one byte (`hostStore_ordinary`, `Memory.read_write`). -/
theorem storesIntoAnActiveWindowAreRefused : Obligations.StoresIntoAnActiveWindowAreRefused := by
  intro a v s
  refine ⟨hostStore_in_window, fun howned hdevice ha => ?_⟩
  exact ⟨_, hostStore_ordinary howned hdevice ha, Memory.read_write_same _ _ _,
    fun b hb => Memory.read_write_other _ _ _ _ hb.symm⟩

/-! ### The transitions of MODE (R104) -/

/-- The rows of R104's table for a command word. -/
theorem command_mode {p : Port} (h : performMove (.command p) s = .next t) :
    t.mode = s.mode ∨
    (s.mode ≠ .faulted ∧ t.mode = .write ∧ decode p.cmd = .ok .attachW) ∨
    (s.mode ≠ .faulted ∧ t.mode = .read ∧ decode p.cmd = .ok .attachR) ∨
    (s.mode ≠ .faulted ∧ t.mode = .faulted ∧ t.faultCode ≠ .none) := by
  by_cases hs : s.mode = .faulted
  · cases (faultedBlockIgnoresEveryCommand p s hs).symm.trans h
    exact .inl rfl
  by_cases ht : t.mode = .faulted
  · obtain ⟨c, hc, hall⟩ := performMove_faulted hs h ht
    cases h.symm.trans (hall s.mem)
    exact .inr (.inr (.inr ⟨hs, rfl, hc⟩))
  rcases performCommand_cases p s with ⟨-, he⟩ | ⟨-, i, hi, he⟩
  · cases ((he.symm.trans h).symm.trans (execIllegal_fault (s := { s with port := p }) hs))
    exact absurd rfl ht
  · obtain ⟨-, -, heffect⟩ := exec_effect (he.symm.trans h) ht
    rcases effect_mode_cases heffect with ⟨hmode, -, -⟩ | ⟨rfl, hmode⟩ | ⟨rfl, hmode⟩
    · exact .inl hmode
    · exact .inr (.inl ⟨hs, hmode, hi⟩)
    · exact .inr (.inr (.inl ⟨hs, hmode, hi⟩))

/-- An attach opens its session unless the block is or becomes FAULTED. -/
theorem attach_mode {p : Port} {mode : Mode} (hi : decode p.cmd = .ok i)
    (heffect : ∀ s t : State, effectOf i s = .next t → t.mode = mode) (h : performMove (.command p) s = .next t) :
    t.mode = mode ∨ t.mode = .faulted := by
  by_cases ht : t.mode = .faulted
  · exact .inr ht
  · rw [performMove_of_decode hi] at h
    exact .inl (heffect _ _ (exec_effect h ht).2.2)

/-- Settles O17: R104's rows by `command_mode` and `attach_mode`; a store leaves MODE, reset sets IDLE. -/
theorem modeTransitionsAreTheTable : Obligations.ModeTransitionsAreTheTable := by
  intro m s t h
  refine ⟨?_, ?_, ?_, ?_⟩
  · cases m with
    | command p =>
      rcases command_mode h with hkept | ⟨hs, ht, hp⟩ | ⟨hs, ht, hp⟩ | ⟨hs, ht, hc⟩
      · exact .inl hkept
      · exact .inr (.inl ⟨hs, ht, p, rfl, hp⟩)
      · exact .inr (.inr (.inl ⟨hs, ht, p, rfl, hp⟩))
      · exact .inr (.inr (.inr (.inl ⟨hs, ht, hc, p, rfl⟩)))
    | reset =>
      cases h
      exact .inr (.inr (.inr (.inr ⟨rfl, rfl⟩)))
    | store a v =>
      obtain ⟨-, -, rfl⟩ := hostStore_next h
      exact .inl rfl
  · rintro p rfl hp
    exact attach_mode hp (fun s t he => by rw [effect_attachW he, openSession_mode]) h
  · rintro p rfl hp
    exact attach_mode hp (fun s t he => by rw [effect_attachR he, openSession_mode]) h
  · rintro rfl
    cases h
    rfl

/-! ### Runs of a faulted block (R100, R101) -/

/-- What a faulted block keeps until reset: its registers and configuration, and the bytes of the session's window. -/
structure StuckAt (s t : State) : Prop where
  same : t = { s with mem := t.mem, port := t.port, hostMoves := t.hostMoves }
  window : ∀ a, s.inSession = true → s.inWindow a → t.mem.read a = s.mem.read a

theorem StuckAt.refl (s : State) : StuckAt s s := ⟨rfl, fun _ _ _ => rfl⟩

theorem StuckAt.mode_eq (h : StuckAt s t) : t.mode = s.mode := by rw [h.same]

/-- The session and its window are those of the registers kept. -/
theorem StuckAt.session (h : StuckAt s t) : t.inSession = s.inSession ∧ ∀ a, t.inWindow a ↔ s.inWindow a := by
  rw [h.same]
  exact ⟨rfl, fun _ => Iff.rfl⟩

theorem StuckAt.trans (h : StuckAt s t) (h' : StuckAt t u) : StuckAt s u := by
  obtain ⟨hsession, hwindow⟩ := h.session
  refine ⟨by rw [h'.same, h.same], fun a hs ha => ?_⟩
  exact (h'.window a (hsession.trans hs) ((hwindow a).2 ha)).trans (h.window a hs ha)

/-- A move other than reset keeps a faulted block as it is: a command is ignored, a store into the window refused. -/
theorem performMove_stuck (hs : s.mode = .faulted) (hm : m ≠ .reset) (h : performMove m s = .next t) :
    StuckAt s t ∧ t.hostMoves = s.hostMoves := by
  cases m with
  | command p =>
    cases (faultedBlockIgnoresEveryCommand p s hs).symm.trans h
    exact ⟨⟨rfl, fun _ _ _ => rfl⟩, rfl⟩
  | reset => exact absurd rfl hm
  | store a v =>
    obtain ⟨howned, -, rfl⟩ := hostStore_next h
    refine ⟨⟨rfl, fun b hsession hb => Memory.read_write_other _ _ _ _ ?_⟩, rfl⟩
    rintro rfl
    exact howned ⟨hsession, hb⟩

theorem step_stuck (hs : s.mode = .faulted) (hr : HostMove.reset ∉ s.hostMoves) (h : step s = .next t) :
    StuckAt s t ∧ HostMove.reset ∉ t.hostMoves := by
  rcases step_cases s with ⟨-, he⟩ | ⟨m, rest, hm, he⟩
  · cases he.symm.trans h
    exact ⟨.refl s, hr⟩
  · rw [hm, List.mem_cons, not_or] at hr
    obtain ⟨hstuck, hmoves⟩ := performMove_stuck (s := { s with hostMoves := rest }) hs (Ne.symm hr.1) (he.symm.trans h)
    have hfirst : StuckAt s { s with hostMoves := rest } := ⟨rfl, fun _ _ _ => rfl⟩
    exact ⟨hfirst.trans hstuck, hmoves ▸ hr.2⟩

/-- A run of k + 1 steps that answers is a step and a run of k. -/
theorem run_succ_next {M : Host.Core} {k : Nat} {s t : M.State} (h : M.run (k + 1) s = .next t) :
    ∃ r, M.step s = .next r ∧ M.run k r = .next t := by
  unfold Host.Core.run at h
  split at h
  · next r hstep => exact ⟨r, hstep, h⟩
  · cases h
  · cases h

/-- Settles O16, by induction on the number of steps. -/
theorem faultIsStuckUntilReset : Obligations.FaultIsStuckUntilReset := by
  have key : ∀ (k : Nat) (s t : State), s.mode = .faulted → HostMove.reset ∉ s.hostMoves → core.run k s = .next t →
      StuckAt s t := by
    intro k
    induction k with
    | zero =>
      intro s t _ _ h
      cases h
      exact .refl s
    | succ k ih =>
      intro s t hs hr h
      obtain ⟨r, hstep, hrun⟩ := run_succ_next h
      obtain ⟨hstuck, hr'⟩ := step_stuck hs hr hstep
      exact hstuck.trans (ih r t (hstuck.mode_eq.trans hs) hr' hrun)
  intro k s t hs hr h
  exact ⟨(key k s t hs hr h).same, (key k s t hs hr h).window⟩

end Sys2Proof.Machine
end

section
/-! PROOFS. The statements about the invariant (10_state.md R15, R16, R21, R23 to R26, R31): it holds at reset, every step
keeps it, and from it every command word runs but for an attach over a device (R47). -/

namespace Sys2Proof.Machine

variable {s t : State} {i : Instr} {m : HostMove}

/-! ### The parts of the invariant and the fields they read -/

/-- A cursor before any session is a matter of its registers alone. -/
theorem State.IdleCursor.of_eq (h : s.IdleCursor) (h1 : t.base = s.base) (h2 : t.cap = s.cap)
    (h3 : t.bytesUsed = s.bytesUsed) (h4 : t.reg = s.reg) (h5 : t.regUsed = s.regUsed) : t.IdleCursor :=
  ⟨h1.trans h.base, h2.trans h.cap, h3.trans h.used, h4.trans h.reg, h5.trans h.regUsed⟩

/-- The byte REG copies lies in the window (R16, R26). -/
theorem State.ReadCursor.copied_inWindow (h : s.ReadCursor) (hw : s.bytesUsed ≤ s.cap) (h0 : s.regUsed ≠ 0) :
    s.inWindow (s.base + s.bytesUsed - 1) := by
  have hpos : 0 < s.regUsed.toNat := Nat.pos_of_ne_zero fun h => h0 (BitVec.eq_of_toNat_eq h)
  have hfetched := h.fetched
  constructor <;> omega

/-- The registers and configuration the invariant's cursor reads are the same. -/
structure SameCursor (s t : State) : Prop where
  session : t.sessionMode = s.sessionMode
  base : t.base = s.base
  cap : t.cap = s.cap
  used : t.bytesUsed = s.bytesUsed
  reg : t.reg = s.reg
  regUsed : t.regUsed = s.regUsed
  cfg : t.cfg = s.cfg

/-- With the same registers, and the same bytes in the window of an open session, the cursor is that of the session. -/
theorem State.CursorOk.of_same (h : s.CursorOk) (hsame : SameCursor s t)
    (hmem : s.sessionMode = .read → ∀ a, s.inWindow a → t.mem.read a = s.mem.read a) : t.CursorOk := by
  obtain ⟨hsession, hbase, hcap, hused, hreg, hregUsed, hcfg⟩ := hsame
  unfold State.CursorOk at h ⊢
  rw [hsession]
  cases hm : s.sessionMode with
  | idle =>
    rw [hm] at h
    exact h.of_eq hbase hcap hused hreg hregUsed
  | write =>
    rw [hm] at h
    obtain ⟨hwindow, hcursor⟩ := h
    exact ⟨hwindow.of_eq hbase hcap hcfg (hused.trans_le hwindow.used), hcursor.of_eq hreg hregUsed⟩
  | read =>
    rw [hm] at h
    obtain ⟨hwindow, hcursor⟩ := h
    refine ⟨hwindow.of_eq hbase hcap hcfg (hused.trans_le hwindow.used), hcursor.of_eq hreg hregUsed hused fun h0 => ?_⟩
    rw [hbase, hused]
    exact hmem hm _ (hcursor.copied_inWindow hwindow.used h0)
  | faulted =>
    rw [hm] at h
    exact h

theorem sessionMode_of_not_faulted (h : s.mode ≠ .faulted) : s.sessionMode = s.mode := if_neg h

/-- The cursor of an open write session. -/
theorem cursorOk_write (hm : s.mode = .write) : s.CursorOk ↔ s.WindowOk ∧ s.WriteCursor := by
  simp [State.CursorOk, State.sessionMode, hm]

/-- The cursor of an open read session. -/
theorem cursorOk_read (hm : s.mode = .read) : s.CursorOk ↔ s.WindowOk ∧ s.ReadCursor := by
  simp [State.CursorOk, State.sessionMode, hm]

/-- Outside FAULTED no fault is recorded (R21). -/
theorem recordOk_of_not_faulted (h : s.mode ≠ .faulted) :
    s.RecordOk ↔ s.faultCode = .none ∧ s.faultMode = .idle ∧ s.faultCmd = 0 := by
  simp [State.RecordOk, h]

/-- An effect writes no fault record (R21). -/
theorem effect_recordOk (hs : s.mode ≠ .faulted) (hr : s.RecordOk) (h : effectOf i s = .next t) : t.RecordOk := by
  obtain ⟨h1, h2, h3⟩ := effect_record h
  rw [recordOk_of_not_faulted hs] at hr
  rw [recordOk_of_not_faulted (effect_mode hs h), h1, h2, h3]
  exact hr

/-! ### Reset -/

/-- Settles O42, part by part. -/
theorem resetStateMeetsTheInvariant : Obligations.ResetStateMeetsTheInvariant :=
  ⟨by decide, by decide, by decide, ⟨rfl, rfl, rfl, rfl, rfl⟩⟩

/-! ### An attach (R67, R68) -/

/-- An attach that has its effect opens a window that is not null, inside memory and over no device (R15, R16, R47). -/
theorem windowOk_of_attach (hi : i = .attachW ∨ i = .attachR) (hc : firstFault (checksOf i s) = none)
    (h : effectOf i s = .next t) : t.WindowOk := by
  have hdevice : coversDevice s.cfg s.abase s.alen = false := by
    by_contra hd
    cases h.symm.trans (effectOf_attach_refused hi (by simpa using hd))
  rw [firstFault_attach hi] at hc
  have h0 : s.abase ≠ 0 := fun h0 => by simp [h0] at hc
  rw [if_neg h0] at hc
  have hrange : ¬ (2 ^ s.cfg.aw < s.abase + s.alen ∨ s.cfg.maxCap < s.alen) := fun hr => by simp [hr] at hc
  obtain ⟨m, -, rfl⟩ := effect_attach hi h
  exact ⟨h0, show s.alen ≤ s.cfg.maxCap by omega, show s.abase + s.alen ≤ 2 ^ s.cfg.aw by omega, hdevice,
    Nat.zero_le _⟩

theorem writeCursor_openSession (m : Mode) (s : State) : (openSession m s).WriteCursor :=
  ⟨by simp, fun _ _ => by simp⟩

theorem readCursor_of_empty (hreg : s.reg = 0) (hu : s.regUsed = 0) : s.ReadCursor :=
  ⟨by simp [hu], by simp [hu], fun h0 => absurd hu h0, fun _ _ => by simp [hreg]⟩

/-! ### The cursor after each command -/

theorem cursorOk_of_attachW (hc : firstFault (checksOf .attachW s) = none) (h : effectOf .attachW s = .next t) :
    t.CursorOk := by
  have hwindow := windowOk_of_attach (.inl rfl) hc h
  obtain rfl := effect_attachW h
  exact ⟨hwindow, writeCursor_openSession _ _⟩

theorem cursorOk_of_attachR (hc : firstFault (checksOf .attachR s) = none) (h : effectOf .attachR s = .next t) :
    t.CursorOk := by
  have hwindow := windowOk_of_attach (.inr rfl) hc h
  obtain rfl := effect_attachR h
  exact ⟨hwindow, readCursor_of_empty rfl rfl⟩

/-- A write command keeps the cursor of its session (R23). -/
theorem cursorOk_of_write (hi : neededMode i = some .write) (hinv : s.CursorOk)
    (hc : firstFault (checksOf i s) = none) (h : effectOf i s = .next t) : t.CursorOk := by
  have hm := mode_of_checks hc hi
  obtain ⟨hwindow, hcursor⟩ := (cursorOk_write hm).1 hinv
  have ha := effect_appended hi hcursor h
  have hregs : t.mode = s.mode ∧ t.base = s.base ∧ t.cap = s.cap ∧ t.cfg = s.cfg := by
    rw [ha.frame.same]
    exact ⟨rfl, rfl, rfl, rfl⟩
  obtain ⟨hmode, hbase, hcap, hcfg⟩ := hregs
  have hused := effect_bytesUsed_le hwindow.used hc h
  exact (cursorOk_write (hmode.trans hm)).2 ⟨hwindow.of_eq hbase hcap hcfg (hcap ▸ hused), ha.cursor⟩

/-- The cursor a read command leaves is that of its session (R24). -/
theorem readCursor_of_read (hi : neededMode i = some .read) (hcursor : s.ReadCursor) (h : effectOf i s = .next t) :
    t.ReadCursor := by
  cases i with
  | readBits n =>
    obtain ⟨bs, u, hr, rfl⟩ := effect_readBits h
    exact (readAll_consumed hcursor hr).cursor.of_eq rfl rfl rfl fun _ => rfl
  | peekBits n =>
    obtain ⟨bs, u, -, rfl⟩ := effect_peekBits h
    exact hcursor.of_eq rfl rfl rfl fun _ => rfl
  | readAlign =>
    cases h
    exact readCursor_of_empty rfl rfl
  | _ => cases hi

/-- A read command keeps the cursor of its session (R24). -/
theorem cursorOk_of_read (hi : neededMode i = some .read) (hinv : s.CursorOk)
    (hc : firstFault (checksOf i s) = none) (h : effectOf i s = .next t) : t.CursorOk := by
  have hm := mode_of_checks hc hi
  obtain ⟨hwindow, hcursor⟩ := (cursorOk_read hm).1 hinv
  have hregs : t.mode = s.mode ∧ t.base = s.base ∧ t.cap = s.cap ∧ t.cfg = s.cfg := by
    rw [effect_read_frame hi h]
    exact ⟨rfl, rfl, rfl, rfl⟩
  obtain ⟨hmode, hbase, hcap, hcfg⟩ := hregs
  have hused := effect_bytesUsed_le hwindow.used hc h
  exact (cursorOk_read (hmode.trans hm)).2
    ⟨hwindow.of_eq hbase hcap hcfg (hcap ▸ hused), readCursor_of_read hi hcursor h⟩

/-- Every command is an attach, a write command or a read command (R91). -/
theorem instr_cases (i : Instr) :
    i = .attachW ∨ i = .attachR ∨ neededMode i = some .write ∨ neededMode i = some .read := by
  cases i <;> simp [neededMode]

theorem effect_cursorOk (hinv : s.CursorOk) (hc : firstFault (checksOf i s) = none) (h : effectOf i s = .next t) :
    t.CursorOk := by
  rcases instr_cases i with rfl | rfl | hi | hi
  · exact cursorOk_of_attachW hc h
  · exact cursorOk_of_attachR hc h
  · exact cursorOk_of_write hi hinv hc h
  · exact cursorOk_of_read hi hinv hc h

/-! ### Memory -/

/-- An effect keeps memory canonical and inside the address space. -/
theorem effect_memoryOk (hm : s.MemoryOk) (h : effectOf i s = .next t) : t.MemoryOk := by
  rcases instr_cases i with hi | hi | hi | hi
  · obtain ⟨m, -, rfl⟩ := effect_attach (.inl hi) h
    exact hm
  · obtain ⟨m, -, rfl⟩ := effect_attach (.inr hi) h
    exact hm
  · exact (effect_write_frame hi h).memory hm
  · rw [effect_read_frame hi h]
    exact hm

/-! ### Every move -/

/-- The invariant does not read the port and the moves to come. -/
theorem State.Inv.of_port_moves (h : s.Inv) (p : Port) (ms : List HostMove) :
    State.Inv { s with port := p, hostMoves := ms } :=
  ⟨h.cfg, h.memory, h.record, h.cursor.of_same ⟨rfl, rfl, rfl, rfl, rfl, rfl, rfl⟩ fun _ _ _ => rfl⟩

/-- Fault entry keeps the cursor of the session it met, and records the fault (R98). -/
theorem State.Inv.takeFault {c : FaultCode} (h : s.Inv) (hs : s.mode ≠ .faulted) (hc : c ≠ .none) :
    (takeFault c s).Inv where
  cfg := h.cfg
  memory := h.memory
  record := ⟨hc, hs⟩
  cursor := h.cursor.of_same ⟨(sessionMode_of_not_faulted hs).symm, rfl, rfl, rfl, rfl, rfl, rfl⟩ fun _ _ _ => rfl

theorem State.Inv.effect (h : s.Inv) (hs : s.mode ≠ .faulted) (hc : firstFault (checksOf i s) = none)
    (he : effectOf i s = .next t) : t.Inv where
  cfg := by
    rw [effect_cfg hs hc he]
    exact h.cfg
  memory := effect_memoryOk h.memory he
  record := effect_recordOk hs h.record he
  cursor := effect_cursorOk h.cursor hc he

theorem State.Inv.assertReset (h : s.Inv) : (assertReset s).Inv :=
  ⟨h.cfg, h.memory, ⟨rfl, rfl, rfl⟩, ⟨rfl, rfl, rfl, rfl, rfl⟩⟩

/-- A store the host is allowed leaves the byte REG copies (R31, R48). -/
theorem State.Inv.hostStore {a : Nat} {v : Byte} (h : s.Inv) (he : hostStore a v s = .next t) : t.Inv := by
  obtain ⟨howned, ha, rfl⟩ := hostStore_next he
  refine ⟨h.cfg, ⟨Memory.wf_write _ _ _ h.memory.1, Memory.bound_write _ _ _ h.memory.2 ha⟩, h.record,
    h.cursor.of_same ⟨rfl, rfl, rfl, rfl, rfl, rfl, rfl⟩ fun hsession b hb => Memory.read_write_other _ _ _ _ ?_⟩
  rintro rfl
  exact howned ⟨by simp [State.inSession, hsession], hb⟩

theorem performMove_inv (h : s.Inv) (he : performMove m s = .next t) : t.Inv := by
  cases m with
  | command p =>
    have hp := h.of_port_moves p s.hostMoves
    cases moveAnswers_of_performMove he with
    | ignored p hs => exact hp
    | fault p c hs hc => exact hp.takeFault hs hc
    | effect p i t hs hchecks heffect => exact hp.effect hs hchecks heffect
  | reset =>
    cases he
    exact h.assertReset
  | store a v => exact h.hostStore he

/-- Settles O43: a step waits or performs one move, and each kind of move keeps the invariant (`performMove_inv`). -/
theorem everyStepKeepsTheInvariant : Obligations.EveryStepKeepsTheInvariant := by
  intro s t h hstep
  rcases step_cases s with ⟨-, he⟩ | ⟨m, rest, -, he⟩
  · cases he.symm.trans hstep
    exact h
  · exact performMove_inv (h.of_port_moves s.port rest) (he.symm.trans hstep)

/-! ### Progress (R45, R47, R53) -/

/-- An attach whose checks pass opens its session or is refused (R47). -/
theorem attach_answers (hi : i = .attachW ∨ i = .attachR) :
    (∃ t, effectOf i s = .next t) ∨ effectOf i s = .refused .attachOverDevice := by
  cases hd : coversDevice s.cfg s.abase s.alen with
  | true => exact .inr (effectOf_attach_refused hi hd)
  | false =>
    rcases hi with rfl | rfl
    · exact .inl ⟨_, effectOf_attachW hd⟩
    · exact .inl ⟨_, effectOf_attachR hd⟩

/-- A read command whose checks pass answers: its fetches lie in the window (R82). -/
theorem effect_read_answers (hi : neededMode i = some .read) (hf : s.windowFits)
    (hc : firstFault (checksOf i s) = none) : ∃ t, effectOf i s = .next t := by
  cases i with
  | readBits n =>
    obtain ⟨-, bs, u, hr⟩ := readChecks_answers hf hc
    exact ⟨_, effectOf_readBits hr⟩
  | peekBits n =>
    obtain ⟨-, bs, u, hr⟩ := readChecks_answers hf hc
    exact ⟨_, effectOf_peekBits hr⟩
  | readAlign => exact ⟨_, rfl⟩
  | _ => cases hi

/-- The window of the invariant lies inside the address space, the empty one before a session too (R16, R25). -/
theorem State.CursorOk.windowFits (h : s.CursorOk) : s.windowFits := by
  unfold State.CursorOk at h
  split at h
  · simp [State.windowFits, h.base, h.cap]
  · exact h.1.fits
  · exact h.1.fits
  · exact h.elim

/-- A command whose checks pass answers, or it is an attach over a device. -/
theorem effect_answers (hf : s.windowFits) (hc : firstFault (checksOf i s) = none) :
    (∃ t, effectOf i s = .next t) ∨
    (effectOf i s = .refused .attachOverDevice ∧ (i = .attachW ∨ i = .attachR)) := by
  rcases instr_cases i with hi | hi | hi | hi
  · exact (attach_answers (.inl hi)).imp_right fun h => ⟨h, .inl hi⟩
  · exact (attach_answers (.inr hi)).imp_right fun h => ⟨h, .inr hi⟩
  · exact .inl (effect_write_answers hi hf hc).1
  · exact .inl (effect_read_answers hi hf hc)

theorem exec_answers (hf : s.windowFits) (i : Instr) :
    (∃ t, exec i s = .next t) ∨ (exec i s = .refused .attachOverDevice ∧ (i = .attachW ∨ i = .attachR)) := by
  rcases exec_cases i s with ⟨-, he⟩ | ⟨-, c, -, he⟩ | ⟨-, hc, he⟩
  · exact .inl ⟨_, he⟩
  · exact .inl ⟨_, he⟩
  · rw [he]
    exact effect_answers hf hc

theorem execIllegal_answers (s : State) : ∃ t, execIllegal s = .next t := by
  by_cases hs : s.mode = .faulted
  · exact ⟨_, execIllegal_in_faulted hs⟩
  · exact ⟨_, execIllegal_fault hs⟩

/-- Settles O48: an illegal word always answers, a decoded command as `exec_answers` says. -/
theorem everyCommandRunsInARun : Obligations.EveryCommandRunsInARun := by
  intro s p h
  have hp := h.of_port_moves p s.hostMoves
  rcases performCommand_cases p s with ⟨-, he⟩ | ⟨-, i, hi, he⟩
  · rw [he]
    exact .inl (execIllegal_answers _)
  · rw [he, hi]
    exact (exec_answers hp.cursor.windowFits i).imp_right fun ⟨hr, hattach⟩ => ⟨hr, hattach.imp (congrArg _) (congrArg _)⟩

end Sys2Proof.Machine
end

section
/-! PROOFS. The statements about all commands at once: which registers each writes (R29), which buses each reads (R55), and that
memory outside the window is neither read nor written (R36). -/

namespace Sys2Proof.Machine

variable {s t : State} {i : Instr} {p : Port} {m : Memory}

/-! ### The table of registers (R29) -/

/-- The padding loop that answers has filled and stored the pending byte, and left nothing pending. -/
theorem padBits_fills {b : Bool} (fuel : Nat) (h1 : 1 ≤ s.regUsed.toNat) (h7 : s.regUsed.toNat ≤ 7)
    (hfuel : 8 ≤ fuel + s.regUsed.toNat) (h : padBits b fuel s = .ok t) :
    t.bytesUsed = s.bytesUsed + 1 ∧ t.reg = 0 ∧ t.regUsed = 0 := by
  induction fuel generalizing s with
  | zero => omega
  | succ fuel ih =>
    have hpending : s.regUsed ≠ 0 := fun h0 => by simp [h0] at h1
    rw [padBits, if_neg hpending] at h
    by_cases hlast : s.regUsed = 7
    · by_cases ha : s.base + s.bytesUsed < 2 ^ s.cfg.aw
      · simp only [writeBit_commit b hlast ha, padBits_boundary] at h
        cases h
        exact ⟨rfl, rfl, rfl⟩
      · simp only [writeBit_error b hlast ha] at h
        cases h
    · have hne : s.regUsed.toNat ≠ 7 := fun hn => hlast (BitVec.eq_of_toNat_eq hn)
      have hnext : (s.regUsed + 1).toNat = s.regUsed.toNat + 1 := by bv_omega
      simp only [writeBit_pending b hlast] at h
      exact ih (s := { s with reg := s.placed b, regUsed := s.regUsed + 1 }) (by simp only [hnext]; omega)
        (by simp only [hnext]; omega) (by simp only [hnext]; omega) h

/-- STUFF and FLUSH change nothing on a byte boundary, and elsewhere store one byte and empty REG. -/
theorem padBits_table {b : Bool} (h7 : s.regUsed.toNat ≤ 7) (h : padBits b 8 s = .ok t) :
    (s.regUsed = 0 ∧ t = s) ∨
    (s.regUsed ≠ 0 ∧ t = { s with bytesUsed := s.bytesUsed + 1, reg := 0, regUsed := 0, mem := t.mem }) := by
  by_cases h0 : s.regUsed = 0
  · cases (padBits_boundary b 8 h0).symm.trans h
    exact .inl ⟨h0, rfl⟩
  · have hpos : 1 ≤ s.regUsed.toNat := Nat.pos_of_ne_zero fun hn => h0 (BitVec.eq_of_toNat_eq hn)
    obtain ⟨hused, hreg, hregUsed⟩ := padBits_fills 8 hpos h7 (by omega) h
    obtain ⟨hsame, -⟩ := padBits_frame 8 h
    refine .inr ⟨h0, ?_⟩
    rw [hused, hreg, hregUsed] at hsame
    exact hsame

/-- Settles O41: the registers of a fault are fault entry's, those of an effect its frame's. -/
theorem commandsWriteOnlyTheTableRegisters : Obligations.CommandsWriteOnlyTheTableRegisters := by
  intro i s t h7 h
  refine ⟨fun hs => ?_, fun hs ht => ?_, fun hs ht => ?_⟩
  · cases (exec_in_faulted i hs).symm.trans h
    rfl
  · obtain ⟨c, -, rfl⟩ := exec_faulted hs h ht
    rfl
  · obtain ⟨-, -, he⟩ := exec_effect h ht
    cases i with
    | attachW => exact effect_attachW he
    | attachR => exact effect_attachR he
    | writeBits | writeBit => exact (effect_write_frame rfl he).same
    | stuff | flush => exact padBits_table h7 (finish_next.1 he)
    | readBits n =>
      obtain ⟨bs, u, hr, rfl⟩ := effect_readBits he
      rw [(readAll_frame hr).1.same]
    | peekBits n =>
      obtain ⟨bs, u, -, rfl⟩ := effect_peekBits he
      rfl
    | readAlign =>
      cases he
      rfl

/-! ### The buses (R55) -/

/-- The port carries the same operands as the state's, on the buses the command reads. -/
structure SameOperands (i : Instr) (s : State) (p : Port) : Prop where
  cmd : p.cmd = s.port.cmd
  din : readsDin i = true → p.din = s.port.din
  window : readsWindow i = true → p.abase = s.port.abase ∧ p.alen = s.port.alen

/-- The window operands are those of the two buses. -/
theorem window_of_port (h : p.abase = s.port.abase ∧ p.alen = s.port.alen) :
    State.abase { s with port := p } = s.abase ∧ State.alen { s with port := p } = s.alen := by
  simp [State.abase, State.alen, h]

theorem checksOf_port (h : SameOperands i s p) : checksOf i { s with port := p } = checksOf i s := by
  cases i with
  | attachW | attachR =>
    obtain ⟨ha, hl⟩ := window_of_port (h.window rfl)
    simp only [checksOf, nullBuffer, windowRange, ha, hl]
  | writeBits | writeBit =>
    have hdin : State.din { s with port := p } = s.din := h.din rfl
    simp only [checksOf, overwideValue, hdin]
    rfl
  | _ => rfl

/-- Padding on another port does the same. -/
theorem finish_padBits_port {b : Bool} (h : finish (padBits b 8 s) = .next t) :
    finish (padBits b 8 { s with port := p }) = .next { t with port := p } := by
  refine finish_next.2 ?_
  rw [padBits_port, finish_next.1 h]
  rfl

/-- An effect reads its operands from the buses of R55 and nothing else of the port. -/
theorem effectOf_port (hp : SameOperands i s p) (h : effectOf i s = .next t) :
    effectOf i { s with port := p } = .next { t with port := p } := by
  cases i with
  | attachW | attachR =>
    obtain ⟨ha, hl⟩ := window_of_port (hp.window rfl)
    simp only [effectOf, openSession, ha, hl] at h ⊢
    split at h <;> cases h
    next hd => exact if_neg hd
  | writeBits n =>
    have hdin : p.din = s.din := hp.din rfl
    exact effectOf_writeBits_port (by rw [hdin]) h
  | writeBit =>
    have hbit : State.dinBit { s with port := p } = s.dinBit := congrArg (·.getLsbD 0) (hp.din rfl)
    refine finish_next.2 ?_
    rw [hbit, writeBit_port, finish_next.1 h]
    rfl
  | stuff | flush => exact finish_padBits_port h
  | readBits n =>
    obtain ⟨acc, u, hr, rfl⟩ := keepRead_next.1 h
    refine keepRead_next.2 ⟨acc, { u with port := p }, ?_, rfl⟩
    rw [readField_port, hr]
    rfl
  | peekBits n =>
    obtain ⟨acc, u, hr, rfl⟩ := restoreRead_next.1 h
    refine restoreRead_next.2 ⟨acc, { u with port := p }, ?_, rfl⟩
    rw [readField_port, hr]
    rfl
  | readAlign =>
    cases h
    rfl

/-- A command does the same on every port with the same operands. -/
theorem exec_sameOperands (hp : SameOperands i s p) (h : exec i s = .next t) :
    exec i { s with port := p } = .next { t with port := p } :=
  exec_port i s p hp.cmd (congrArg firstFault (checksOf_port hp)) (fun _ _ => effectOf_port hp) t h

/-- Settles O46: the operands a command reads are the same (`exec_sameOperands`). -/
theorem unreadBusesAreIgnored : Obligations.UnreadBusesAreIgnored := by
  intro i s t d ab al h
  refine ⟨fun hi => ?_, fun hi => ?_⟩
  · exact exec_sameOperands (p := { s.port with din := d }) ⟨rfl, fun hd => by simp [hi] at hd, fun _ => ⟨rfl, rfl⟩⟩ h
  · exact exec_sameOperands (p := { s.port with abase := ab, alen := al })
      ⟨rfl, fun _ => rfl, fun hw => by simp [hi] at hw⟩ h

/-! ### Memory outside the window (R36) -/

/-- Over the memories of `s` and `m` a command left those of `t` and `m'`: alike in the window, and outside it untouched. -/
def WindowOnly (s t : State) (m m' : Memory) : Prop :=
  ∀ a, (s.inWindow a → m'.read a = t.mem.read a) ∧
    (¬ s.inWindow a → t.mem.read a = s.mem.read a ∧ m'.read a = m.read a)

/-- A command that stores nothing leaves both memories. -/
theorem windowOnly_of_mem_eq (hm : ∀ a, s.inWindow a → m.read a = s.mem.read a) (ht : t.mem = s.mem) :
    WindowOnly s t m m :=
  fun a => ⟨fun ha => by rw [ht, hm a ha], fun _ => by rw [ht]; exact ⟨rfl, rfl⟩⟩

/-- A fault over another memory is the same fault: the checks read none (R46). -/
theorem exec_fault_mem {c : FaultCode} (hs : s.mode ≠ .faulted) (hc : firstFault (checksOf i s) = some c) (m : Memory) :
    exec i { s with mem := m } = .next { takeFault c s with mem := m } :=
  exec_fault (s := { s with mem := m }) hs ((congrArg firstFault (checksOf_mem i s m)).trans hc)

theorem exec_of_checks_mem (hs : s.mode ≠ .faulted) (hc : firstFault (checksOf i s) = none) (m : Memory) :
    exec i { s with mem := m } = effectOf i { s with mem := m } :=
  exec_of_checks (s := { s with mem := m }) hs ((congrArg firstFault (checksOf_mem i s m)).trans hc)

/-- An attach makes no memory access (R69). -/
theorem effect_attach_mem (hi : i = .attachW ∨ i = .attachR) (h : effectOf i s = .next t) (m : Memory) :
    t.mem = s.mem ∧ effectOf i { s with mem := m } = .next { t with mem := m } := by
  rcases hi with rfl | rfl
  all_goals
    simp only [effectOf] at h
    split at h <;> cases h
    refine ⟨rfl, ?_⟩
    next hd => exact if_neg hd

/-- An attach is refused only over a device (R47). -/
theorem coversDevice_of_refused {r : Refusal} (hi : i = .attachW ∨ i = .attachR) (h : effectOf i s = .refused r) :
    coversDevice s.cfg s.abase s.alen = true := by
  by_contra hd
  rcases hi with rfl | rfl
  · cases h.symm.trans (effectOf_attachW (by simpa using hd))
  · cases h.symm.trans (effectOf_attachR (by simpa using hd))

/-- A write command stores the same bytes over every memory, from BASE + BYTES_USED on (R42). -/
theorem effect_write_mem (hi : neededMode i = some .write) (h : effectOf i s = .next t) (m : Memory) :
    ∃ m', effectOf i { s with mem := m } = .next { t with mem := m' } ∧
      ∀ a, (m'.read a = t.mem.read a ∧ s.base + s.bytesUsed ≤ a ∧ a < s.base + t.bytesUsed) ∨
        (m'.read a = m.read a ∧ t.mem.read a = s.mem.read a) := by
  cases i with
  | writeBits n =>
    obtain ⟨m', hw, hm'⟩ := writeAll_mem _ s t m ((writeField_eq _ _ _).symm.trans (finish_next.1 h))
    exact ⟨m', finish_next.2 ((writeField_eq _ _ _).trans hw), hm'⟩
  | writeBit =>
    obtain ⟨m', hw, hm'⟩ := writeAll_mem _ s t m ((writeAll_singleton _ _).trans (finish_next.1 h))
    exact ⟨m', finish_next.2 ((writeAll_singleton _ _).symm.trans hw), hm'⟩
  | stuff b =>
    obtain ⟨m', hw, hm'⟩ := padBits_mem b 8 s t m (finish_next.1 h)
    exact ⟨m', finish_next.2 hw, hm'⟩
  | flush =>
    obtain ⟨m', hw, hm'⟩ := padBits_mem false 8 s t m (finish_next.1 h)
    exact ⟨m', finish_next.2 hw, hm'⟩
  | _ => cases hi

/-- A read command reads the same bits over every memory with the same window (R43). -/
theorem effect_read_mem (hi : neededMode i = some .read) (hf : s.windowFits) (hc : firstFault (checksOf i s) = none)
    (hm : ∀ a, s.inWindow a → m.read a = s.mem.read a) (h : effectOf i s = .next t) :
    effectOf i { s with mem := m } = .next { t with mem := m } := by
  cases i with
  | readBits n =>
    obtain ⟨bs, u, hr, rfl⟩ := effect_readBits h
    refine effectOf_readBits (u := { u with mem := m }) ?_
    rw [readAll_mem m (readChecks_answers hf hc).1 hf hm, hr]
  | peekBits n =>
    obtain ⟨bs, u, hr, rfl⟩ := effect_peekBits h
    refine effectOf_peekBits (s := { s with mem := m }) (u := { u with mem := m }) ?_
    rw [readAll_mem m (readChecks_answers hf hc).1 hf hm, hr]
  | readAlign =>
    cases h
    rfl
  | _ => cases hi

/-- The bytes a write command stores lie in the window: its capacity check left room for them (R72). -/
theorem effect_windowOnly (hf : s.windowFits) (hc : firstFault (checksOf i s) = none)
    (hm : ∀ a, s.inWindow a → m.read a = s.mem.read a) (h : effectOf i s = .next t) :
    ∃ m', effectOf i { s with mem := m } = .next { t with mem := m' } ∧ WindowOnly s t m m' := by
  have hattach : i = .attachW ∨ i = .attachR →
      ∃ m', effectOf i { s with mem := m } = .next { t with mem := m' } ∧ WindowOnly s t m m' := fun hi =>
    ⟨m, (effect_attach_mem hi h m).2, windowOnly_of_mem_eq hm (effect_attach_mem hi h m).1⟩
  rcases instr_cases i with hi | hi | hi | hi
  · exact hattach (.inl hi)
  · exact hattach (.inr hi)
  · obtain ⟨m', he, hstored⟩ := effect_write_mem hi h m
    have hused := (effect_write_answers hi hf hc).2 t h
    refine ⟨m', he, fun a => ⟨fun ha => ?_, fun ha => ?_⟩⟩
    · rcases hstored a with ⟨hsame, -⟩ | ⟨hleft, hleft'⟩
      · exact hsame
      · rw [hleft, hleft', hm a ha]
    · rcases hstored a with ⟨-, hlow, hhigh⟩ | ⟨hleft, hleft'⟩
      · unfold State.inWindow at ha
        omega
      · exact ⟨hleft', hleft⟩
  · have hmem : t.mem = s.mem := by rw [effect_read_frame hi h]
    exact ⟨m, effect_read_mem hi hf hc hm h, windowOnly_of_mem_eq hm hmem⟩

/-- A command that answers over one memory answers alike over every memory with the same window. -/
theorem exec_windowOnly (hf : s.windowFits) (hm : ∀ a, s.inWindow a → m.read a = s.mem.read a) (h : exec i s = .next t) :
    ∃ m', exec i { s with mem := m } = .next { t with mem := m' } ∧ WindowOnly s t m m' := by
  rcases exec_cases i s with ⟨hs, he⟩ | ⟨hs, c, hc, he⟩ | ⟨hs, hc, he⟩
  · cases he.symm.trans h
    exact ⟨m, exec_in_faulted (s := { s with mem := m }) i hs, windowOnly_of_mem_eq hm rfl⟩
  · cases he.symm.trans h
    exact ⟨m, exec_fault_mem hs hc m, windowOnly_of_mem_eq hm rfl⟩
  · rw [exec_of_checks_mem hs hc]
    exact effect_windowOnly hf hc hm (he.symm.trans h)

/-- An attach over a device is refused over every memory (R47). -/
theorem exec_refused_mem (hf : s.windowFits) {r : Refusal} (h : exec i s = .refused r) (m : Memory) :
    exec i { s with mem := m } = .refused r := by
  rcases exec_cases i s with ⟨-, he⟩ | ⟨-, c, -, he⟩ | ⟨hs, hc, he⟩
  · cases he.symm.trans h
  · cases he.symm.trans h
  · rcases effect_answers hf hc with ⟨t, ht⟩ | ⟨hr, hi⟩
    · cases (he.trans ht).symm.trans h
    · cases (he.trans hr).symm.trans h
      rw [exec_of_checks_mem hs hc]
      exact effectOf_attach_refused (s := { s with mem := m }) hi (coversDevice_of_refused (s := s) hi hr)

/-- In IDLE and FAULTED a command makes no memory access (R36, R46). -/
theorem exec_no_session (hs : s.mode = .idle ∨ s.mode = .faulted) (h : exec i s = .next t) (m : Memory) :
    t.mem = s.mem ∧ exec i { s with mem := m } = .next { t with mem := m } := by
  rcases exec_cases i s with ⟨hs', he⟩ | ⟨hs', c, hc, he⟩ | ⟨hs', hc, he⟩
  · cases he.symm.trans h
    exact ⟨rfl, exec_in_faulted (s := { s with mem := m }) i hs'⟩
  · cases he.symm.trans h
    exact ⟨rfl, exec_fault_mem hs' hc m⟩
  · have hidle : s.mode = .idle := hs.resolve_right hs'
    have hi : i = .attachW ∨ i = .attachR := by
      rcases instr_cases i with hi | hi | hi | hi
      · exact .inl hi
      · exact .inr hi
      · cases hidle.symm.trans (mode_of_checks hc hi)
      · cases hidle.symm.trans (mode_of_checks hc hi)
    rw [exec_of_checks_mem hs' hc]
    exact effect_attach_mem hi (he.symm.trans h) m

/-- Settles O45: `exec_windowOnly` for an answer, `exec_refused_mem` for a refusal; and no command stops the model
(`exec_answers`). -/
theorem noAccessOutsideTheWindow : Obligations.NoAccessOutsideTheWindow := by
  intro i s m hf
  refine ⟨fun hm => ⟨fun t h => exec_windowOnly hf hm h, fun r h => exec_refused_mem hf h m, fun f h => ?_⟩,
    fun hs t h => exec_no_session hs h m⟩
  rcases exec_answers hf i with ⟨t, ht⟩ | ⟨hr, -⟩
  · cases ht.symm.trans h
  · cases hr.symm.trans h

end Sys2Proof.Machine
end

section
/-! PROOFS. The statement about writing and reading back (R88): the run of the write commands is a write session, whose stream
the memory holds (R79); a read session that has these bits ahead returns each field (R86). -/

namespace Sys2Proof.Machine

variable {s t : State} {i : Instr} {n : Width} {bits bs rest : List Bool} {xs : List StreamItem}

/-! ### The items and their bits -/

/-- The write command of an item (R88). -/
def StreamItem.command : StreamItem → Instr
  | .field n _ => .writeBits n
  | .pad b => .stuff b

/-- A field has a width of 1 to 64 (R1). -/
def StreamItem.legal : StreamItem → Prop
  | .field n _ => legalWidth n
  | .pad _ => True

/-- The bits an item adds to a stream of `len` bits (R79). -/
def StreamItem.streamBits (x : StreamItem) (len : Nat) : List Bool := commandBits x.command x.writePort.din len

/-- The bits that items one after another add to a stream of `len` bits. -/
def itemsBits : List StreamItem → Nat → List Bool
  | [], _ => []
  | x :: xs, len => x.streamBits len ++ itemsBits xs (len + (x.streamBits len).length)

/-- A stream with FLUSH's zeros up to the byte boundary (R77). -/
def padded (bits : List Bool) : List Bool := bits ++ List.replicate (padLength bits.length) false

theorem decode_writePort (x : StreamItem) : decode x.writePort.cmd = .ok x.command := by
  cases x <;> exact decode_encode _

theorem neededMode_command (x : StreamItem) : neededMode x.command = some .write := by
  cases x <;> rfl

/-! ### Runs of commands -/

theorem runCommands_cons_next {p : Port} {ps : List Port} (h : runCommands (p :: ps) s = .next t) :
    ∃ r, performMove (.command p) s = .next r ∧ runCommands ps r = .next t := by
  rw [runCommands] at h
  split at h
  · next r hr => exact ⟨r, hr, h⟩
  · cases h
  · cases h

/-- Commands do not lead out of FAULTED (R100). -/
theorem runCommands_faulted {ps : List Port} (hs : s.mode = .faulted) (h : runCommands ps s = .next t) :
    t.mode = .faulted := by
  induction ps generalizing s with
  | nil =>
    cases h
    exact hs
  | cons p ps ih =>
    obtain ⟨r, hr, hrun⟩ := runCommands_cons_next h
    cases (faultedBlockIgnoresEveryCommand p s hs).symm.trans hr
    exact ih (s := { s with port := p }) hs hrun

/-- In a run that does not end FAULTED no command faults. -/
theorem runCommands_not_faulted {ps : List Port} (ht : t.mode = .write) (h : runCommands ps s = .next t) :
    s.mode ≠ .faulted := fun hs => by
  cases ht.symm.trans (runCommands_faulted hs h)

/-! ### The write session of the items (R79) -/

theorem WriteSession.performMove {p : Port} (hs : WriteSession s bits) (hp : decode p.cmd = .ok i)
    (hi : neededMode i = some .write) (h : performMove (.command p) s = .next t) (ht : t.mode ≠ .faulted) :
    WriteSession t (bits ++ commandBits i p.din bits.length) := by
  rw [performMove_of_decode hp] at h
  obtain ⟨-, -, he⟩ := exec_effect h ht
  have hmode : t.mode = s.mode := by rw [(effect_write_frame hi he).same]
  exact .command s t bits p i hs hi h (hmode.trans hs.holdsStream.mode)

theorem writeSession_of_attach {p : Port} (hp : decode p.cmd = .ok .attachW) (h : performMove (.command p) s = .next t)
    (ht : t.mode ≠ .faulted) : WriteSession t [] := by
  rw [performMove_of_decode hp] at h
  obtain ⟨-, -, he⟩ := exec_effect h ht
  exact .attach _ t h (by rw [effect_attachW he, openSession_mode])

/-- A field that is written without a fault has a legal width (R92). -/
theorem legal_of_performMove {x : StreamItem} (h : performMove (.command x.writePort) s = .next t)
    (ht : t.mode ≠ .faulted) : x.legal := by
  rw [performMove_of_decode (decode_writePort x)] at h
  obtain ⟨-, hchecks, -⟩ := exec_effect h ht
  cases x with
  | pad b => trivial
  | field n v =>
    have hwidth : badWidth n = false :=
      firstFault_none.1 hchecks (badWidth n, .badWidth) (by simp [StreamItem.command, checksOf])
    by_contra hillegal
    simp [badWidth_iff_not_legalWidth.2 hillegal] at hwidth

/-- The write commands of the items and a FLUSH extend a session by the items' bits and zeros to the byte boundary. -/
theorem writeSession_of_items (hs : WriteSession s bits) (ht : t.mode = .write)
    (h : runCommands (xs.map StreamItem.writePort ++ [portOf .flush]) s = .next t) :
    (∀ x ∈ xs, x.legal) ∧ WriteSession t (padded (bits ++ itemsBits xs bits.length)) := by
  induction xs generalizing s bits with
  | nil =>
    obtain ⟨r, hr, hrun⟩ := runCommands_cons_next h
    cases hrun
    have hflush := hs.performMove (p := portOf .flush) (decode_encode .flush) rfl hr (by simp [ht])
    exact ⟨by simp, by simpa [itemsBits, padded, commandBits] using hflush⟩
  | cons x xs ih =>
    obtain ⟨r, hr, hrun⟩ := runCommands_cons_next h
    have hrmode := runCommands_not_faulted ht hrun
    obtain ⟨hlegal, hsession⟩ := ih (hs.performMove (decode_writePort x) (neededMode_command x) hr hrmode) hrun
    refine ⟨List.forall_mem_cons.2 ⟨legal_of_performMove hr hrmode, hlegal⟩, ?_⟩
    simpa [itemsBits, StreamItem.streamBits] using hsession

/-! ### A read session with known bits ahead (R86) -/

/-- A read session between two commands, with `bits` the next bits of the window from its position on. -/
structure ReadsAhead (s : State) (bits : List Bool) : Prop where
  mode : s.mode = .read
  fits : s.windowFits
  cursor : s.ReadCursor
  room : s.bitpos + bits.length ≤ 8 * s.cap
  ahead : ∀ k, k < bits.length → bits[k]? = some (s.windowBit (s.bitpos + k))

theorem ReadsAhead.of_port (h : ReadsAhead s bits) (p : Port) : ReadsAhead { s with port := p } bits :=
  ⟨h.mode, h.fits, h.cursor.of_eq rfl rfl rfl fun _ => rfl, h.room, h.ahead⟩

/-- Past some of the bits the others are ahead. -/
theorem ReadsAhead.advance (h : ReadsAhead s (bs ++ rest))
    (hsame : t = { s with reg := t.reg, regUsed := t.regUsed, bytesUsed := t.bytesUsed, dout := t.dout })
    (hcursor : t.ReadCursor) (hpos : t.bitpos = s.bitpos + bs.length) : ReadsAhead t rest := by
  have hregs : t.mode = s.mode ∧ t.cap = s.cap ∧ t.mem = s.mem ∧ t.base = s.base ∧ (t.windowFits ↔ s.windowFits) := by
    rw [hsame]
    exact ⟨rfl, rfl, rfl, rfl, Iff.rfl⟩
  obtain ⟨hmode, hcap, hmem, hbase, hfits⟩ := hregs
  have hroom := h.room
  rw [List.length_append] at hroom
  refine ⟨hmode.trans h.mode, hfits.2 h.fits, hcursor, by omega, fun k hk => ?_⟩
  have hnext := h.ahead (bs.length + k) (by rw [List.length_append]; omega)
  rw [List.getElem?_append_right (Nat.le_add_right _ _), Nat.add_sub_cancel_left] at hnext
  rw [hnext, hpos, Nat.add_assoc, windowBit_congr hmem hbase]

/-- READ_BITS returns the bits ahead (R83, R86). -/
theorem ReadsAhead.readBits (h : ReadsAhead s (bs ++ rest)) (hlen : bs.length = n.toNat) (hw : legalWidth n) :
    ∃ t, exec (.readBits n) s = .next t ∧ t.dout = readValue bs ∧ ReadsAhead t rest ∧
      t.bitpos = s.bitpos + bs.length := by
  have hroom := h.room
  rw [List.length_append] at hroom
  obtain ⟨cs, u, hr, hread, -⟩ := read_answers h.mode hw (by omega) h.fits
  obtain ⟨hframe, hcs⟩ := readAll_frame hr
  have hu := readAll_consumed h.cursor hr
  have hpos := hu.position_eq h.cursor
  rw [← bitpos_of_read h.mode] at hpos
  have hbits : cs = bs := by
    refine List.ext_getElem (hcs.trans hlen.symm) fun j hj hj' => ?_
    have hahead := h.ahead j (by rw [List.length_append]; omega)
    rw [List.getElem?_append_left hj', List.getElem?_eq_getElem hj', Option.some_inj] at hahead
    have hget := hu.getD hj
    rw [List.getD_eq_getElem _ _ hj, ← bitpos_of_read h.mode] at hget
    rw [hget, hahead]
  subst hbits
  have hsame : ({ u with dout := readValue cs } : State) = { s with
      reg := u.reg, regUsed := u.regUsed, bytesUsed := u.bytesUsed, dout := readValue cs } := by rw [hframe.same]
  have hupos : State.bitpos { u with dout := readValue cs } = s.bitpos + cs.length := by
    rw [← hpos]
    exact bitpos_of_read (by rw [hsame]; exact h.mode)
  exact ⟨_, hread, rfl, h.advance hsame (hu.cursor.of_eq rfl rfl rfl fun _ => rfl) hupos, hupos⟩

/-- READ_ALIGN skips the bits to the byte boundary (R85). -/
theorem ReadsAhead.readAlign (h : ReadsAhead s (bs ++ rest)) (hlen : bs.length = padLength s.bitpos) :
    ∃ t, exec .readAlign s = .next t ∧ ReadsAhead t rest ∧ t.bitpos = s.bitpos + bs.length := by
  have hread := exec_readAlign h.mode
  obtain ⟨-, hpos⟩ := (readAlignDropsTheRestOfTheByte s).2.1 h.mode h.cursor _ hread
  have htpos : State.bitpos { s with reg := 0, regUsed := 0 } = s.bitpos + bs.length := by
    rw [hpos, hlen]
    unfold padLength
    omega
  exact ⟨_, hread, h.advance rfl (readCursor_of_empty rfl rfl) htpos, htpos⟩

/-! ### Reading the items back (R88) -/

theorem readItems_field {v : Data} {vs : List Nat} (h : performMove (.command (StreamItem.field n v).readPort) s = .next t)
    (ht : t.mode = .read) (hrest : readItems xs t = some vs) :
    readItems (.field n v :: xs) s = some (t.dout.toNat :: vs) := by
  simp [readItems, h, ht, hrest, StreamItem.value]

theorem readItems_pad {b : Bool} {vs : List Nat} (h : performMove (.command (StreamItem.pad b).readPort) s = .next t)
    (ht : t.mode = .read) (hrest : readItems xs t = some vs) : readItems (.pad b :: xs) s = some vs := by
  simp [readItems, h, ht, hrest, StreamItem.value]

/-- A field reads back modulo 2^n (R88). -/
theorem readValue_fieldBits {v : Data} (hw : legalWidth n) :
    (readValue (fieldBits v n.toNat)).toNat = v.toNat % 2 ^ n.toNat := by
  rw [readValue_toNat (by simpa using hw.2), bitsValue_fieldBits]

/-- With the items' bits ahead every item reads back. -/
theorem readItems_of_ahead (hlegal : ∀ x ∈ xs, x.legal) (h : ReadsAhead s (itemsBits xs s.bitpos)) :
    readItems xs s = some (xs.filterMap StreamItem.value) := by
  induction xs generalizing s with
  | nil => rfl
  | cons x xs ih =>
    obtain ⟨hx, hxs⟩ := List.forall_mem_cons.1 hlegal
    have hport := h.of_port x.readPort
    cases x with
    | field n v =>
      obtain ⟨t, hread, hdout, hahead, hpos⟩ := hport.readBits (fieldBits_length v n.toNat) hx
      have hmove := (performMove_of_decode (p := (StreamItem.field n v).readPort) (decode_encode (.readBits n)) s).trans hread
      have hvalue : t.dout.toNat = v.toNat % 2 ^ n.toNat := (congrArg BitVec.toNat hdout).trans (readValue_fieldBits hx)
      rw [readItems_field hmove hahead.mode (ih hxs (hpos ▸ hahead)), hvalue]
      rfl
    | pad b =>
      obtain ⟨t, hread, hahead, hpos⟩ := hport.readAlign List.length_replicate
      have hmove := (performMove_of_decode (p := (StreamItem.pad b).readPort) (decode_encode .readAlign) s).trans hread
      rw [readItems_pad hmove hahead.mode (ih hxs (hpos ▸ hahead))]
      rfl

/-- An attach for reading over the window of a flushed stream has the stream ahead (R68, R79). -/
theorem readsAhead_of_attach {p : Port} {u : State} (hs : HoldsStream t (padded bits))
    (hp : decode p.cmd = .ok .attachR) (h : performMove (.command p) t = .next u) (hu : u.mode = .read)
    (hbase : u.base = t.base) (hcap : t.cap ≤ u.cap) : u.bitpos = 0 ∧ ReadsAhead u bits := by
  rw [performMove_of_decode hp] at h
  obtain ⟨-, hchecks, he⟩ := exec_effect h (by simp [hu])
  have hwindow := windowOk_of_attach (.inr rfl) hchecks he
  obtain rfl := effect_attachR he
  have hpos : State.bitpos (openSession .read { t with port := p }) = 0 := rfl
  have hlen := hs.bytesUsed_of_padded
  have hused := hs.used
  refine ⟨hpos, rfl, hwindow.fits, readCursor_of_empty rfl rfl, by omega, fun k hk => ?_⟩
  have hbit := hs.committed (k := k) (by omega)
  rw [padded, List.getElem?_append_left hk] at hbit
  rw [← hbit, hpos, Nat.zero_add, State.windowBit, hbase]
  rfl

/-- Settles O40: the write commands make a session that holds the items' bits (`writeSession_of_items`), the attach for
reading has them ahead (`readsAhead_of_attach`), and so each item reads back (`readItems_of_ahead`). -/
theorem writtenFieldsReadBack : Obligations.WrittenFieldsReadBack := by
  intro xs w r s t u hw hr hrun ht hread hu hbase hcap
  obtain ⟨s', hattach, hitems⟩ := runCommands_cons_next hrun
  have hstart := writeSession_of_attach hw hattach (runCommands_not_faulted ht hitems)
  obtain ⟨hlegal, hsession⟩ := writeSession_of_items hstart ht hitems
  obtain ⟨hpos, hahead⟩ := readsAhead_of_attach hsession.holdsStream hr hread hu hbase hcap
  refine readItems_of_ahead hlegal ?_
  rw [hpos]
  exact hahead

end Sys2Proof.Machine
end
